-- ==== Sys2Proof/Word.lean ====
section
/-!
DEFINITION. The three bit widths of the machine (spec/00_scope.md R3, R4, R10) and the two widenings its rules write out.
Every value is unsigned; nothing is ever sign extended (R10).
-/

namespace Sys2Proof

/-- A word: "an unsigned integer constrained to [0, 32767] (15 bits)" (R3). Registers, stack elements, emitted values
and data addresses are words. -/
abbrev Word := BitVec 15

/-- A cell: one 16-bit element of the memory array (R4). The program counter has the same width (R16), and so does a
raw operand (R44). -/
abbrev Cell := BitVec 16

/-- One byte of the input port or of an image (R22, R108). -/
abbrev Byte := BitVec 8

/-- `zext_16` of a word: how a data store puts a word into a cell (R33). -/
def Word.toCell (v : Word) : Cell := v.setWidth 16

/-- `zext_15` of an input byte (R88). -/
def Byte.toWord (b : Byte) : Word := b.setWidth 15

/-- Bits 14 to 0 of a cell (R10: `v[14:0]`). -/
def Cell.low15 (c : Cell) : Word := c.setWidth 15

end Sys2Proof
end

