-- ==== Sys2Proof/Machine/Flags.lean ====
section
/-!
DEFINITION. The machine has no flags, no condition codes and no predicate registers (spec/10_state.md R17): a comparison
writes the word 1 or 0 to its destination, and a conditional jump tests a word against 0. These two conversions are all
there is.
-/

namespace Sys2Proof.Machine

/-- The word a comparison writes: 1 if it holds, else 0 (R17, R67, R68). -/
def truthWord (p : Bool) : Word := if p then 1 else 0

/-- What a conditional jump tests: "Any non-zero word counts as true, not only 1" (R78). -/
def nonZero (v : Word) : Bool := v != 0

end Sys2Proof.Machine
end

