-- ==== Sys2Proof/Config.lean ====
section
/-!
DEFINITION. What the spec fixes for this hardware as named constants and parameters (spec/00_scope.md section 4).
The machine leaves no value open that a program can read, so there is no free value here.
`STACK_DEPTH` is unbounded for this hardware (R7, decision D15) and therefore needs no constant: the stack is a list.
-/

namespace Sys2Proof.Config

/-- `MEM_CELLS`: the memory has cells 0 to 32767 (R5). -/
def memCells : Nat := 32768

/-- `REG_BASE`: register `i` is named by the cell value `32768 + i` (R6). -/
def regBase : Nat := 32768

/-- `NREGS`: the number of registers (R6). -/
def numRegs : Nat := 8

/-- The longest instruction is four cells (R41). -/
def maxWidth : Nat := 4

/-- `CR`: the input byte that `in` swallows (R9). -/
def cr : Byte := 13

/-- `IN_CR_SWALLOW`: a parameter whose value for this hardware is `true` (R9, decision D16; log entry 8). -/
def inCrSwallow : Bool := true

end Sys2Proof.Config
end

