-- ==== Sys2Proof/Syntax.lean ====
section
/-!
DEFINITION. The instructions as syntax: one constructor per row of spec/opcode_table.json (spec/30_encoding.md R51),
with operands `a`, `b`, `c` in the order they are stored (R41).
-/

namespace Sys2Proof

/-- An operand cell that passed validation is a literal or a register code (R44). What the two mean depends on the
operand's role: as a source a literal is the value itself, as a destination it is a memory address (R45). -/
inductive Operand where
  /-- a raw operand in 0 to 32767 -/
  | lit (v : Word)
  /-- a raw operand in 32768 to 32775, naming register 0 to 7 -/
  | reg (r : Fin 8)
  deriving DecidableEq, Repr

/-- The 22 instructions (R51). Roles of the operands are those of R45. `inp` stands for the mnemonic `in`, which is a
keyword of Lean. -/
inductive Instr where
  | halt
  | set (a b : Operand)
  | push (a : Operand)
  | pop (a : Operand)
  | eq (a b c : Operand)
  | gt (a b c : Operand)
  | jmp (a : Operand)
  | jt (a b : Operand)
  | jf (a b : Operand)
  | add (a b c : Operand)
  | mult (a b c : Operand)
  | mod (a b c : Operand)
  | and (a b c : Operand)
  | or (a b c : Operand)
  | not (a b : Operand)
  | rmem (a b : Operand)
  | wmem (a b : Operand)
  | call (a : Operand)
  | ret
  | out (a : Operand)
  | inp (a : Operand)
  | noop
  deriving DecidableEq, Repr

/-- The operands in the order they are stored after the opcode cell (R41). -/
def Instr.operands : Instr → List Operand
  | .halt => []
  | .set a b => [a, b]
  | .push a => [a]
  | .pop a => [a]
  | .eq a b c => [a, b, c]
  | .gt a b c => [a, b, c]
  | .jmp a => [a]
  | .jt a b => [a, b]
  | .jf a b => [a, b]
  | .add a b c => [a, b, c]
  | .mult a b c => [a, b, c]
  | .mod a b c => [a, b, c]
  | .and a b c => [a, b, c]
  | .or a b c => [a, b, c]
  | .not a b => [a, b]
  | .rmem a b => [a, b]
  | .wmem a b => [a, b]
  | .call a => [a]
  | .ret => []
  | .out a => [a]
  | .inp a => [a]
  | .noop => []

/-- The width of an instruction in cells: one opcode cell and its operand cells (R41, R43). -/
def Instr.width (i : Instr) : Nat := 1 + i.operands.length

end Sys2Proof
end

