-- ==== Sys2Proof/WellFormed.lean ====
section
/-!
DEFINITION. Which instructions are well formed. An operand's range is part of its type (`Operand`), so one check is
left: the destination of `set` is a register code (spec/30_encoding.md R45, spec/41_move_and_stack.md R63).
An instruction that fails it is still a term, still decodes, and still has a meaning: it raises `InvalidRegister`.
-/

namespace Sys2Proof

/-- The operand is a register code (R44). -/
def Operand.isReg : Operand → Bool
  | .lit _ => false
  | .reg _ => true

/-- The operand classes of `i` are those its roles allow (R45, R56). -/
def Instr.wf : Instr → Bool
  | .halt => true
  | .set a _ => a.isReg
  | .push _ => true
  | .pop _ => true
  | .eq _ _ _ => true
  | .gt _ _ _ => true
  | .jmp _ => true
  | .jt _ _ => true
  | .jf _ _ => true
  | .add _ _ _ => true
  | .mult _ _ _ => true
  | .mod _ _ _ => true
  | .and _ _ _ => true
  | .or _ _ _ => true
  | .not _ _ => true
  | .rmem _ _ => true
  | .wmem _ _ => true
  | .call _ => true
  | .ret => true
  | .out _ => true
  | .inp _ => true
  | .noop => true

end Sys2Proof
end

