-- ==== Sys2Proof/Decode.lean ====
section
/-!
DEFINITION. Phases 1 to 4 of a step as a total function from cells to an instruction or a named rejection
(spec/40_step_and_operands.md R52 to R56, spec/30_encoding.md R41 to R48), and after it the encoder.
-/

namespace Sys2Proof

/-- Why no instruction could be decoded, in the phase order of R52. The cell is the opcode cell, kept because a fault
records it (R21). -/
inductive Reject where
  /-- phase 1: there is no opcode cell, the fetch address is beyond 32767 (R53) -/
  | noOpcodeCell
  /-- phase 2: the opcode cell is above 21 (R54) -/
  | unknownOpcode (op : Cell)
  /-- phase 3: an operand cell would lie beyond address 32767 (R55) -/
  | operandBeyondEnd (op : Cell)
  /-- phase 4: an operand cell holds 32776 or more (R56) -/
  | invalidOperand (op : Cell)
  deriving DecidableEq, Repr

/-- The class of a raw operand, which depends on its value only (R44): a literal, a register code, or invalid. -/
def Operand.ofCell (w : Cell) : Option Operand :=
  if w.toNat < Config.regBase then some (.lit w.low15)
  else if h : w.toNat - Config.regBase < 8 then some (.reg ⟨w.toNat - Config.regBase, h⟩)
  else none

/-- The four instruction formats, one per operand count, each with the instruction it builds (R41). -/
inductive Format where
  | f0 (i : Instr)
  | f1 (mk : Operand → Instr)
  | f2 (mk : Operand → Operand → Instr)
  | f3 (mk : Operand → Operand → Operand → Instr)

/-- The opcode map of R51; an opcode above 21 has no row (R54). -/
def formatOf : Nat → Option Format
  | 0 => some (.f0 .halt)
  | 1 => some (.f2 .set)
  | 2 => some (.f1 .push)
  | 3 => some (.f1 .pop)
  | 4 => some (.f3 .eq)
  | 5 => some (.f3 .gt)
  | 6 => some (.f1 .jmp)
  | 7 => some (.f2 .jt)
  | 8 => some (.f2 .jf)
  | 9 => some (.f3 .add)
  | 10 => some (.f3 .mult)
  | 11 => some (.f3 .mod)
  | 12 => some (.f3 .and)
  | 13 => some (.f3 .or)
  | 14 => some (.f2 .not)
  | 15 => some (.f2 .rmem)
  | 16 => some (.f2 .wmem)
  | 17 => some (.f1 .call)
  | 18 => some (.f0 .ret)
  | 19 => some (.f1 .out)
  | 20 => some (.f1 .inp)
  | 21 => some (.f0 .noop)
  | _ => none

/-- Decode the instruction whose opcode cell is the head of the list. All operand cells must be present before any is
validated, and every one is validated, used or not (R52, R55, R56). The register-only rule for `set` is checked by
its meaning, where R63 writes it. -/
def decode : List Cell → Except Reject Instr
  | [] => .error .noOpcodeCell
  | op :: rest =>
    match formatOf op.toNat with
    | none => .error (.unknownOpcode op)
    | some (.f0 i) => .ok i
    | some (.f1 mk) =>
      match rest with
      | a :: _ =>
        match Operand.ofCell a with
        | some a => .ok (mk a)
        | none => .error (.invalidOperand op)
      | _ => .error (.operandBeyondEnd op)
    | some (.f2 mk) =>
      match rest with
      | a :: b :: _ =>
        match Operand.ofCell a, Operand.ofCell b with
        | some a, some b => .ok (mk a b)
        | _, _ => .error (.invalidOperand op)
      | _ => .error (.operandBeyondEnd op)
    | some (.f3 mk) =>
      match rest with
      | a :: b :: c :: _ =>
        match Operand.ofCell a, Operand.ofCell b, Operand.ofCell c with
        | some a, some b, some c => .ok (mk a b c)
        | _, _, _ => .error (.invalidOperand op)
      | _ => .error (.operandBeyondEnd op)

/-- The cell whose two image bytes are `lo`, then `hi`: "little-endian 16-bit words" (R27, R108). -/
def cellOfBytes (lo hi : Byte) : Cell := hi ++ lo

/-- The low byte of a cell, the one at the lower image offset (R50). -/
def loByte (c : Cell) : Byte := c.setWidth 8

/-- The high byte of a cell (R50). -/
def hiByte (c : Cell) : Byte := (c >>> 8).setWidth 8

/-- The cells of a byte sequence; an unpaired last byte forms no cell (R108). -/
def cellsOfBytes : List Byte → List Cell
  | lo :: hi :: rest => cellOfBytes lo hi :: cellsOfBytes rest
  | _ => []

/-- The bytes of a sequence of cells, low byte first, in address order (R50). -/
def bytesOfCells : List Cell → List Byte
  | [] => []
  | c :: rest => loByte c :: hiByte c :: bytesOfCells rest

/-- The decoder on bytes laid out as in an image (R50); total on any bytes. -/
def decodeBytes (bytes : List Byte) : Except Reject Instr := decode (cellsOfBytes bytes)

/-- The raw operand that names an operand (R44). -/
def Operand.toCell : Operand → Cell
  | .lit v => v.toCell
  | .reg r => BitVec.ofNat 16 (Config.regBase + r.val)

/-- The opcode of R51. -/
def Instr.opcode : Instr → Nat
  | .halt => 0
  | .set _ _ => 1
  | .push _ => 2
  | .pop _ => 3
  | .eq _ _ _ => 4
  | .gt _ _ _ => 5
  | .jmp _ => 6
  | .jt _ _ => 7
  | .jf _ _ => 8
  | .add _ _ _ => 9
  | .mult _ _ _ => 10
  | .mod _ _ _ => 11
  | .and _ _ _ => 12
  | .or _ _ _ => 13
  | .not _ _ => 14
  | .rmem _ _ => 15
  | .wmem _ _ => 16
  | .call _ => 17
  | .ret => 18
  | .out _ => 19
  | .inp _ => 20
  | .noop => 21

/-- The opcode cell (R41): the whole 16-bit cell holds the opcode value (R42). -/
def Instr.opcodeCell (i : Instr) : Cell := BitVec.ofNat 16 i.opcode

/-- The encoder: the cells of an instruction in address order (R41). -/
def encode (i : Instr) : List Cell := i.opcodeCell :: i.operands.map Operand.toCell

/-- The eight bytes, lowest address first, of the four cells numbered by `w` as spec/opcode_table.json numbers them
(bit 0 is the least significant bit of the first cell); every bit above `nbits` is 0. -/
def tableWordBytes (nbits w : Nat) : List Byte :=
  (List.range (2 * Config.maxWidth)).map fun k => BitVec.ofNat 8 ((w % 2 ^ nbits) / 2 ^ (8 * k))

/-- What the decoder reads from the instruction whose bits are `w` (log entry 23). -/
def decodeTableWord (nbits w : Nat) : Option Instr :=
  match decodeBytes (tableWordBytes nbits w) with
  | .ok i => some i
  | .error _ => none

end Sys2Proof
end

