-- ==== Sys2Proof/Machine/State.lean ====
section
/-!
DEFINITION. The state of the machine (spec/10_state.md R13) as plain data, its value right after reset (R25), and the
reasons a step can stop. The seven items of R13 are the fields; the fault record is part of the status, as R21 asks.
-/

namespace Sys2Proof.Machine

/-- Memory contents as a list of (offset, byte) pairs. Cell `a` is the two bytes at offsets `2a` (low) and `2a + 1`
(high), the offsets its bytes have in an image (R50). A program never sees an offset: every access is to one whole cell
(R29), through `readCell` and `writeCell` of Machine/Ops.lean (log entry 1). -/
abbrev Memory := List Host.Cell

/-- The six fault kinds (R20, R90). -/
inductive FaultKind where
  | unknownInstruction
  | invalidRegister
  | stackUnderflow
  | divisionByZero
  | addressOutOfRange
  | invalidWord
  deriving DecidableEq, Repr

/-- `status`, `fault_pc` and `fault_opcode` (R20, R21). The fault record has a meaning only while the status is a fault
kind, so it is part of that value, as R21 and decision D10 ask: no unwritten value can be read. -/
inductive Status where
  /-- the machine has a next step -/
  | running
  /-- the normal end (R91) -/
  | halted
  /-- a fault: its kind, `fault_pc`, and `fault_opcode`, which is `none` when the opcode cell could not be fetched -/
  | fault (kind : FaultKind) (pc : Cell) (opcode : Option Cell)
  deriving DecidableEq, Repr

/-- The complete state of the machine, "and nothing else" (R13). -/
structure State where
  /-- `x[0]` to `x[7]` (R14) -/
  regs : Vector Word 8
  /-- the instruction pointer, 16 bits, 0 to 32768 (R16) -/
  pc : Cell
  /-- the operand and call stack, top first, of any length (R18) -/
  stack : List Word
  /-- the memory array (R19) -/
  mem : Memory
  /-- the run state and the fault record (R20, R21) -/
  status : Status
  /-- the words emitted so far, oldest first (R22) -/
  out : List Word
  /-- the bytes supplied and not yet consumed, oldest first (R22) -/
  input : List Byte
  deriving DecidableEq, Repr

/-- Reasons for which a step stops outside the machine's own status. THERE ARE NONE: every fault the spec describes is
a terminal status the step enters (R100), a next state; a terminal state and an `in` without input keep the state as it
is (R111, R106). The type is empty, so no step can fault and no claim can rest on one (log entries 6, 7 and 24). -/
inductive Fault where
  deriving DecidableEq, Repr

/-- Reasons for which the model gives an instruction no meaning. -/
inductive Refusal where
  /-- raised by an arm of `exec` that has no meaning yet, naming the row of the opcode table: safe. No arm raises it. -/
  | notModelled (mnemonic : String)
  deriving DecidableEq, Repr

/-- The state after a reset with the empty image and with no input supplied yet (R25, R107): registers 0 (decision D6,
log entry 3), `pc` 0 (D7, log entry 4), the stack and `OUT` empty, every cell 0, status `Running`. -/
def State.reset : State where
  regs := Vector.replicate 8 0
  pc := 0
  stack := []
  mem := []
  status := .running
  out := []
  input := []

end Sys2Proof.Machine
end

