-- ==== Sys2Proof/Machine/Ops.lean ====
section
/-!
DEFINITION. The named operations over memory, registers, the stack, the streams and the status that the meanings are
written with: the primitives of spec/00_scope.md R11, the raising of a terminal condition (spec/60_exceptions.md R100),
the fetch (spec/40_step_and_operands.md R53, R55), and the host's operations (spec/70_reset_and_hazards.md R116).
-/

namespace Sys2Proof.Machine

/-! ### Memory -/

/-- What an unlisted byte reads as: a cell the image does not fill is 0 (R19, R25). -/
def Memory.unlisted : Byte := 0

/-- The canonical form: offsets strictly rising, no entry equal to what an unlisted offset reads as, and no offset beyond
the last cell. Equal memories are then equal lists. -/
abbrev Memory.wf (m : Memory) : Prop :=
  m.Pairwise (fun p q => p.1 < q.1) ∧ ∀ p ∈ m, p.2 ≠ Memory.unlisted ∧ p.1 < 2 * Config.memCells

/-- The byte at an offset. -/
def Memory.readByte (m : Memory) (k : Nat) : Byte :=
  match m with
  | [] => Memory.unlisted
  | p :: rest => if p.1 = k then p.2 else Memory.readByte rest k

/-- Insert an entry before the first entry with a larger offset. -/
def Memory.insertByte (m : Memory) (k : Nat) (b : Byte) : Memory :=
  match m with
  | [] => [(k, b)]
  | p :: rest => if k < p.1 then (k, b) :: p :: rest else p :: Memory.insertByte rest k b

/-- Set the byte at an offset, keeping the canonical form: the old entry goes, and a byte that equals what an unlisted
offset reads as gets no new one. -/
def Memory.writeByte (m : Memory) (k : Nat) (b : Byte) : Memory :=
  let m' := m.filter fun p => p.1 != k
  if b = Memory.unlisted then m' else Memory.insertByte m' k b

/-- `MemRead(addr, 1)`: the 16-bit value of one cell (R11). -/
def Memory.readCell (m : Memory) (a : Nat) : Cell :=
  cellOfBytes (Memory.readByte m (2 * a)) (Memory.readByte m (2 * a + 1))

/-- `MemWrite(addr, 1, v)`: store the 16-bit value in one cell (R11). -/
def Memory.writeCell (m : Memory) (a : Nat) (v : Cell) : Memory :=
  Memory.writeByte (Memory.writeByte m (2 * a) (loByte v)) (2 * a + 1) (hiByte v)

/-- The entries a byte sequence that starts at offset `k` lists. -/
def Memory.listing (k : Nat) (bytes : List Byte) : Memory :=
  match bytes with
  | [] => []
  | b :: rest =>
    if b = Memory.unlisted then Memory.listing (k + 1) rest else (k, b) :: Memory.listing (k + 1) rest

/-- Memory after the load of an image (R108): `W = min(floor(L / 2), 32768)` cells are filled from address 0; an
unpaired last byte and everything beyond the last cell are dropped, the rest stays 0. -/
def Memory.ofImage (image : List Byte) : Memory :=
  Memory.listing 0 (image.take (2 * min (image.length / 2) Config.memCells))

/-! ### Reading and writing the state -/

/-- `x[i]` (R11, R14). -/
def State.reg (s : State) (r : Fin 8) : Word := s.regs[r]

/-- `x[i] <- v` (R11, R14). -/
def State.setReg (s : State) (r : Fin 8) (v : Word) : State := { s with regs := s.regs.set r v }

/-- The cell at a data address; a data address is a word, so it is always in range (R31). -/
def State.cell (s : State) (a : Word) : Cell := Memory.readCell s.mem a.toNat

/-- A data store of a word to a cell: `MemWrite(a, 1, zext_16(v))` (R33). -/
def State.store (s : State) (a v : Word) : State :=
  { s with mem := Memory.writeCell s.mem a.toNat (Word.toCell v) }

/-- The sequential advance over an instruction of `width` cells; nothing wraps at 32768 (R59, R16). -/
def State.advance (s : State) (width : Nat) : State := { s with pc := s.pc + BitVec.ofNat 16 width }

/-- A control transfer to an absolute address (R83). -/
def State.jumpTo (s : State) (target : Word) : State := { s with pc := Word.toCell target }

/-- `push(v)` (R11). The stack is unbounded, so it cannot overflow (R18, decision D15). -/
def State.push (s : State) (v : Word) : State := { s with stack := v :: s.stack }

/-- Replace the stack: what `pop()` leaves is the old stack without its first element (R11). -/
def State.setStack (s : State) (rest : List Word) : State := { s with stack := rest }

/-- `emit(v)` (R11): the word is handed to the output port, which always accepts (R87, decision D18). -/
def State.emit (s : State) (v : Word) : State := { s with out := s.out ++ [v] }

/-- Replace the input not yet consumed: what `take()` leaves is the old input without its first byte (R11). -/
def State.setInput (s : State) (rest : List Byte) : State := { s with input := rest }

/-! ### Terminal conditions -/

/-- `raise K` for a fault kind: the status becomes the fault, with `fault_pc` the address of the instruction's opcode
cell and `fault_opcode` its value, or `none` if it could not be fetched. Nothing else changes: a faulting step drops
every other effect (R60, R100). There is no handler and no return (R101). -/
def State.raise (s : State) (kind : FaultKind) (opcode : Option Cell) : State :=
  { s with status := .fault kind s.pc opcode }

/-- `status <- Halted`: everything else, `pc` included, is unchanged and no fault record is written (R76, R91). -/
def State.halt (s : State) : State := { s with status := .halted }

/-- The fault a rejected decode raises in each of phases 1 to 4 (R53 to R56). -/
def State.raiseReject (s : State) : Reject → State
  | .noOpcodeCell => s.raise .addressOutOfRange none
  | .unknownOpcode op => s.raise .unknownInstruction (some op)
  | .operandBeyondEnd op => s.raise .addressOutOfRange (some op)
  | .invalidOperand op => s.raise .invalidRegister (some op)

/-! ### Fetch -/

/-- The cells from `pc` on, at most the longest instruction, and none beyond address 32767 (R29, R31, R41). Fetch reads
the same memory that stores write (R37). -/
def State.fetchCells (s : State) : List Cell :=
  (List.range (min Config.maxWidth (Config.memCells - s.pc.toNat))).map fun k =>
    Memory.readCell s.mem (s.pc.toNat + k)

/-- Phases 1 to 4 of a step: fetch and decode the instruction at `pc` (R52). -/
def State.fetch (s : State) : Except Reject Instr := decode s.fetchCells

/-- Store cells at consecutive addresses; an address beyond 32767 has no cell, and nothing is stored for it. -/
def Memory.placeCells (m : Memory) (a : Nat) (cells : List Cell) : Memory :=
  match cells with
  | [] => m
  | c :: rest =>
    Memory.placeCells (if a < Config.memCells then Memory.writeCell m a c else m) (a + 1) rest

/-! ### What the host can do (R116) -/

/-- `load(words)`: the reset of R107 with an image (as bytes, R108) and the input supplied so far. The state before it
is no argument: nothing of it survives (R107, R110). -/
def State.load (image : List Byte) (input : List Byte) : State :=
  { State.reset with mem := Memory.ofImage image, input := input }

/-- The host supplies one input byte, at any time (R22, R116). -/
def State.supply (s : State) (b : Byte) : State := { s with input := s.input ++ [b] }

/-- The 3-bit code of a status on a status output (R20). -/
def Status.code : Status → BitVec 3
  | .running => 0
  | .halted => 1
  | .fault .unknownInstruction _ _ => 2
  | .fault .invalidRegister _ _ => 3
  | .fault .stackUnderflow _ _ => 4
  | .fault .divisionByZero _ _ => 5
  | .fault .addressOutOfRange _ _ => 6
  | .fault .invalidWord _ _ => 7

end Sys2Proof.Machine
end

