-- ==== Sys2Proof/Machine/Operands.lean ====
section
/-!
DEFINITION. The two operand resolutions every instruction uses: read resolution of a source operand
(spec/40_step_and_operands.md R57) and write resolution of a destination operand (R58).
-/

namespace Sys2Proof.Machine

/-- `val(w)`, read resolution: a literal is itself, never a memory address; a register code is the register's contents
(R57). -/
def State.val (s : State) : Operand → Word
  | .lit v => v
  | .reg r => s.reg r

/-- `wr(d, v)`, write resolution: a literal destination is a memory cell, a register code a register (R58). -/
def State.wr (s : State) (d : Operand) (v : Word) : State :=
  match d with
  | .lit a => s.store a v
  | .reg r => s.setReg r v

end Sys2Proof.Machine
end

