-- ==== Sys2Proof/Machine/Alu.lean ====
section
/-!
DEFINITION. Comparison, arithmetic and logic: `eq`, `gt`, `add`, `mult`, `mod`, `and`, `or`, `not`
(spec/42_alu.md). All of them read their sources before they write (R61, R66).
-/

namespace Sys2Proof.Machine

/-- `f(b, c)` of `eq` (R67). -/
def aluEq (b c : Word) : Word := truthWord (b == c)

/-- `f(b, c)` of `gt`: the unsigned comparison `b > c` (R68). -/
def aluGt (b c : Word) : Word := truthWord (decide (b.toNat > c.toNat))

/-- `f(b, c)` of `add`: the exact sum, reduced modulo 32768 (R69). -/
def aluAdd (b c : Word) : Word := BitVec.ofNat 15 (b.toNat + c.toNat)

/-- `f(b, c)` of `mult`: the exact product, reduced modulo 32768 (R70). -/
def aluMult (b c : Word) : Word := BitVec.ofNat 15 (b.toNat * c.toNat)

/-- `f(b, c)` of `mod`: the unsigned remainder, used with `c` not 0 only (R71). -/
def aluMod (b c : Word) : Word := BitVec.ofNat 15 (b.toNat % c.toNat)

/-- `f(b, c)` of `and` (R72). -/
def aluAnd (b c : Word) : Word := b &&& c

/-- `f(b, c)` of `or` (R73). -/
def aluOr (b c : Word) : Word := b ||| c

/-- `f(b)` of `not`: the 15-bit complement (R74). -/
def aluNot (b : Word) : Word := ~~~b

/-- The shared shape of the three-operand instructions: read both sources, write the result, advance by 4 (R66). -/
def alu3 (f : Word → Word → Word) (a b c : Operand) (s : State) : State :=
  (s.wr a (f (s.val b) (s.val c))).advance 4

/-- `eq a b c` (R67). -/
def execEq (a b c : Operand) (s : State) : Host.Outcome State Fault Refusal := .next (alu3 aluEq a b c s)

/-- `gt a b c` (R68). -/
def execGt (a b c : Operand) (s : State) : Host.Outcome State Fault Refusal := .next (alu3 aluGt a b c s)

/-- `add a b c` (R69). -/
def execAdd (a b c : Operand) (s : State) : Host.Outcome State Fault Refusal := .next (alu3 aluAdd a b c s)

/-- `mult a b c` (R70). -/
def execMult (a b c : Operand) (s : State) : Host.Outcome State Fault Refusal := .next (alu3 aluMult a b c s)

/-- `mod a b c` (R71). A divisor value of 0 raises `DivisionByZero` before anything is written (R95). -/
def execMod (a b c : Operand) (s : State) : Host.Outcome State Fault Refusal :=
  if s.val c = 0 then .next (s.raise .divisionByZero (some (Instr.mod a b c).opcodeCell))
  else .next (alu3 aluMod a b c s)

/-- `and a b c` (R72). -/
def execAnd (a b c : Operand) (s : State) : Host.Outcome State Fault Refusal := .next (alu3 aluAnd a b c s)

/-- `or a b c` (R73). -/
def execOr (a b c : Operand) (s : State) : Host.Outcome State Fault Refusal := .next (alu3 aluOr a b c s)

/-- `not a b`, the two-operand shape of R66 (R74). -/
def execNot (a b : Operand) (s : State) : Host.Outcome State Fault Refusal :=
  .next ((s.wr a (aluNot (s.val b))).advance 3)

end Sys2Proof.Machine
end

