-- ==== Sys2Proof/Machine/CharIO.lean ====
section
/-!
DEFINITION. Character output and input: `out`, `in` (spec/45_io.md).
-/

namespace Sys2Proof.Machine

/-- `out a` (R87): the whole 15-bit word goes to the output port. -/
def execOut (a : Operand) (s : State) : Host.Outcome State Fault Refusal :=
  .next ((s.emit (s.val a)).advance 2)

/-- Phases 6 and 7 of `in` for a value of the parameter `IN_CR_SWALLOW`. With no byte available "the machine stays at
this pc with status = Running and no state changes" (R88, R106): the state is its own next state (log entry 7). A byte is
consumed in every other case, the swallowed 13 too, and one only (R88). -/
def inputByte (swallow : Bool) (a : Operand) (s : State) : State :=
  match s.input with
  | [] => s
  | ch :: rest =>
    if swallow && ch == Config.cr then (s.setInput rest).advance 2
    else ((s.setInput rest).wr a (Byte.toWord ch)).advance 2

/-- `in a` (R88) with this hardware's value of `IN_CR_SWALLOW` (R9). -/
def execInp (a : Operand) (s : State) : Host.Outcome State Fault Refusal :=
  .next (inputByte Config.inCrSwallow a s)

end Sys2Proof.Machine
end

