-- ==== Sys2Proof/Machine/Control.lean ====
section
/-!
DEFINITION. Control: `halt`, `jmp`, `jt`, `jf`, `call`, `ret`, `noop` (spec/43_control.md).
-/

namespace Sys2Proof.Machine

/-- `halt` (R76). -/
def execHalt (s : State) : Host.Outcome State Fault Refusal := .next s.halt

/-- `jmp a` (R77). -/
def execJmp (a : Operand) (s : State) : Host.Outcome State Fault Refusal := .next (s.jumpTo (s.val a))

/-- `jt a b` (R78). -/
def execJt (a b : Operand) (s : State) : Host.Outcome State Fault Refusal :=
  .next (if nonZero (s.val a) then s.jumpTo (s.val b) else s.advance 3)

/-- `jf a b` (R79). -/
def execJf (a b : Operand) (s : State) : Host.Outcome State Fault Refusal :=
  .next (if nonZero (s.val a) then s.advance 3 else s.jumpTo (s.val b))

/-- `call a` (R80). A return address above 32767 is not a word: `AddressOutOfRange`, nothing pushed (decision D4; log
entry 11). -/
def execCall (a : Operand) (s : State) : Host.Outcome State Fault Refusal :=
  if s.pc.toNat + 2 < Config.memCells then
    .next ((s.push (Cell.low15 (s.pc + 2))).jumpTo (s.val a))
  else .next (s.raise .addressOutOfRange (some (Instr.call a).opcodeCell))

/-- `ret` (R81). An empty stack is `StackUnderflow`, not `Halted` (conflict C4, decision D23). -/
def execRet (s : State) : Host.Outcome State Fault Refusal :=
  match s.stack with
  | [] => .next (s.raise .stackUnderflow (some Instr.ret.opcodeCell))
  | top :: rest => .next ((s.setStack rest).jumpTo top)

/-- `noop` (R82). -/
def execNoop (s : State) : Host.Outcome State Fault Refusal := .next (s.advance 1)

end Sys2Proof.Machine
end

