-- ==== Sys2Proof/Machine/LoadStore.lean ====
section
/-!
DEFINITION. Memory load and store: `rmem`, `wmem` (spec/44_load_store.md). The one addressing mode is absolute, through
a source value.
-/

namespace Sys2Proof.Machine

/-- `rmem a b` (R85). A cell above 32767 is not a word: `InvalidWord`, no state change (R32, decision D3; log
entry 10). -/
def execRmem (a b : Operand) (s : State) : Host.Outcome State Fault Refusal :=
  if (s.cell (s.val b)).toNat < Config.regBase then
    .next ((s.wr a (Cell.low15 (s.cell (s.val b)))).advance 3)
  else .next (s.raise .invalidWord (some (Instr.rmem a b).opcodeCell))

/-- `wmem a b` (R86). Both operands are sources: `a` gives the address, and `wmem` never writes a register (R45). -/
def execWmem (a b : Operand) (s : State) : Host.Outcome State Fault Refusal :=
  .next ((s.store (s.val a) (s.val b)).advance 3)

end Sys2Proof.Machine
end

