-- ==== Sys2Proof/Machine/MoveStack.lean ====
section
/-!
DEFINITION. Data movement and stack instructions: `set`, `push`, `pop` (spec/41_move_and_stack.md).
-/

namespace Sys2Proof.Machine

/-- `set a b` (R63). A literal destination raises `InvalidRegister` and writes nothing (R56, conflict C3, decision D20;
log entry 19). -/
def execSet (a b : Operand) (s : State) : Host.Outcome State Fault Refusal :=
  match a with
  | .lit _ => .next (s.raise .invalidRegister (some (Instr.set a b).opcodeCell))
  | .reg r => .next ((s.setReg r (s.val b)).advance 3)

/-- `push a` (R64). -/
def execPush (a : Operand) (s : State) : Host.Outcome State Fault Refusal :=
  .next ((s.push (s.val a)).advance 2)

/-- `pop a` (R65). On an empty stack nothing is written and nothing is popped (R94). -/
def execPop (a : Operand) (s : State) : Host.Outcome State Fault Refusal :=
  match s.stack with
  | [] => .next (s.raise .stackUnderflow (some (Instr.pop a).opcodeCell))
  | top :: rest => .next (((s.setStack rest).wr a top).advance 2)

end Sys2Proof.Machine
end

