-- ==== Sys2Proof/Machine/Step.lean ====
section
/-!
DEFINITION. One step of the machine (spec/40_step_and_operands.md R52, spec/70_reset_and_hazards.md R111).
-/

namespace Sys2Proof.Machine

/-- A step executes one instruction, from the fetch of its opcode cell to the last change it makes (R2, R52). In a
terminal status it changes nothing (R111, decision D22; log entry 6). -/
def step (s : State) : Host.Outcome State Fault Refusal :=
  match s.status with
  | .running =>
    match s.fetch with
    | .ok i => exec i s
    | .error r => .next (s.raiseReject r)
  | .halted => .next s
  | .fault _ _ _ => .next s

/-- The state with the instruction that spec/opcode_table.json numbers as `w` stored at `pc`, and the status `Running`,
without which there is no fetch (log entry 23). -/
def State.withFetchWord (s : State) (nbits w : Nat) : State :=
  { s with
    mem := Memory.placeCells s.mem s.pc.toNat (cellsOfBytes (tableWordBytes nbits w))
    status := .running }

end Sys2Proof.Machine
end

