-- ==== Sys2Proof/Safety.lean ====
section
/-!
DEFINITION. The words claims use about a run: how it goes on and how it ends (spec/70_reset_and_hazards.md R112, R113),
what waiting is (spec/60_exceptions.md R106), and the invariant of the machine (spec/10_state.md R24).
-/

namespace Sys2Proof.Machine

/-- `k` calls of `step()` (R112). -/
def run (k : Nat) (s : State) : Host.Outcome State Fault Refusal := Host.Core.run Sys2Proof.core k s

/-- The run has ended: the status is terminal (R20, R113). -/
def State.Ended (s : State) : Prop := s.status ≠ .running

/-- The run has ended successfully, "exactly when status = Halted" (R113). -/
def State.Successful (s : State) : Prop := s.status = .halted

/-- The one wait state: at an `in`, with no byte available (R106). It is not an end of the run. -/
def State.Waiting (s : State) : Prop :=
  s.status = .running ∧ s.input = [] ∧ ∃ a, s.fetch = .ok (.inp a)

/-- The invariant: memory is in its canonical form, `pc` is in 0 to 32768 (R24 item 3), and a recorded `fault_pc` is the
`pc` at which the machine stopped (R21, R100). Items 1, 2, 4 and 5 of R24 are the types of State's fields. -/
def State.Inv (s : State) : Prop :=
  Memory.wf s.mem ∧ s.pc.toNat ≤ Config.memCells ∧
    ∀ kind pc opcode, s.status = .fault kind pc opcode → pc = s.pc

end Sys2Proof.Machine
end

