-- ==== Sys2Proof/Certificates/Slice0/Obligations.lean ====
section
/-!
DEFINITION. The statements about the model, each from a numbered rule of spec/. A statement that rests on a decision of
spec/92_eei_decisions.md, or on a choice of this model, says so in its docstring and names the log entry.
Statements about an instruction are about `exec`, which starts after phase 4, as R62 has it; phases 1 to 4 have
statements about `step`.
-/

namespace Sys2Proof.Claims

open Sys2Proof.Machine

/-- Every register reads as before. -/
def SameRegs (s t : State) : Prop := ∀ r : Fin 8, t.reg r = s.reg r

/-- Every cell of the memory array reads as before. -/
def SameMem (s t : State) : Prop := ∀ x : Word, t.cell x = s.cell x

/-- The stack, the status with its fault record, and both streams are as before. -/
def SameRest (s t : State) : Prop :=
  t.stack = s.stack ∧ t.status = s.status ∧ t.out = s.out ∧ t.input = s.input

/-- The place the destination `d` names holds `v`; every other register and every other cell reads as before (R58). -/
def Writes (d : Operand) (v : Word) (s t : State) : Prop :=
  (∀ r : Fin 8, t.reg r = if d = .reg r then v else s.reg r) ∧
    ∀ x : Word, t.cell x = if d = .lit x then Word.toCell v else s.cell x

/-- The whole effect of an instruction of `width` cells that writes `v` to `d` and does nothing else. -/
def OnlyWrites (d : Operand) (v : Word) (width : Nat) (s t : State) : Prop :=
  Writes d v s t ∧ SameRest s t ∧ t.pc = s.pc + BitVec.ofNat 16 width

/-- The operand count of an opcode value in 0 to 21, as the table of R43 has it. -/
def operandCount (op : Nat) : Nat :=
  if op ∈ [0, 18, 21] then 0
  else if op ∈ [2, 3, 6, 17, 19, 20] then 1
  else if op ∈ [1, 7, 8, 14, 15, 16] then 2
  else 3

/-- The cell at `pc + k`. -/
def cellAt (s : State) (k : Nat) : Cell := Memory.readCell s.mem (s.pc.toNat + k)

/-- The state after a fault of kind `kind`: only the status with its fault record differs (R100). -/
def faulted (s : State) (kind : FaultKind) (opcode : Option Cell) : State :=
  { s with status := .fault kind s.pc opcode }

/-- The cell address a destination operand names, if it names a cell (R58). -/
def destCell : Operand → Option Word
  | .lit a => some a
  | .reg _ => none

/-- The register a destination operand names, if it names one (R58). -/
def destReg : Operand → Option (Fin 8)
  | .lit _ => none
  | .reg r => some r

/-- The address an instruction stores to, if it stores: its literal destination (R58), or for `wmem` the value of its
first operand (R86). -/
def storedTo (i : Instr) (s : State) : Option Word :=
  match i with
  | .halt => none
  | .set _ _ => none
  | .push _ => none
  | .pop a => destCell a
  | .eq a _ _ => destCell a
  | .gt a _ _ => destCell a
  | .jmp _ => none
  | .jt _ _ => none
  | .jf _ _ => none
  | .add a _ _ => destCell a
  | .mult a _ _ => destCell a
  | .mod a _ _ => destCell a
  | .and a _ _ => destCell a
  | .or a _ _ => destCell a
  | .not a _ => destCell a
  | .rmem a _ => destCell a
  | .wmem a _ => some (s.val a)
  | .call _ => none
  | .ret => none
  | .out _ => none
  | .inp a => destCell a
  | .noop => none

/-- The register an instruction writes, if it writes one: the register code in its destination operand (R14, R45). -/
def writtenReg : Instr → Option (Fin 8)
  | .halt => none
  | .set a _ => destReg a
  | .push _ => none
  | .pop a => destReg a
  | .eq a _ _ => destReg a
  | .gt a _ _ => destReg a
  | .jmp _ => none
  | .jt _ _ => none
  | .jf _ _ => none
  | .add a _ _ => destReg a
  | .mult a _ _ => destReg a
  | .mod a _ _ => destReg a
  | .and a _ _ => destReg a
  | .or a _ _ => destReg a
  | .not a _ => destReg a
  | .rmem a _ => destReg a
  | .wmem _ _ => none
  | .call _ => none
  | .ret => none
  | .out _ => none
  | .inp a => destReg a
  | .noop => none

/-- The instructions that set `pc` themselves or leave it alone (R59). -/
def isControl : Instr → Bool
  | .halt => true
  | .set _ _ => false
  | .push _ => false
  | .pop _ => false
  | .eq _ _ _ => false
  | .gt _ _ _ => false
  | .jmp _ => true
  | .jt _ _ => true
  | .jf _ _ => true
  | .add _ _ _ => false
  | .mult _ _ _ => false
  | .mod _ _ _ => false
  | .and _ _ _ => false
  | .or _ _ _ => false
  | .not _ _ => false
  | .rmem _ _ => false
  | .wmem _ _ => false
  | .call _ => true
  | .ret => true
  | .out _ => false
  | .inp _ => false
  | .noop => false

end Sys2Proof.Claims

open Sys2Proof Sys2Proof.Machine Sys2Proof.Claims

/-! ### Encoding -/

/-- Decoding the cells of any instruction, whatever follows them, gives it back with every operand (R41, R44, R48). That
this takes in a `set` with a literal destination, which R47 item 3 and R56 fault and the model faults in its meaning
(decision D20), is the model's choice (log entry 19). -/
def Obligations.DecodeOfEncodeIsTheInstruction : Prop :=
  ∀ (i : Instr) (rest : List Cell), decode (encode i ++ rest) = .ok i

/-- A decoded instruction's cells are its encoding: no cell has two meanings and no bit of an operand is dropped
(R42, R44). -/
def Obligations.DecodedCellsAreTheEncoding : Prop :=
  ∀ (cells : List Cell) (i : Instr), decode cells = .ok i → ∃ rest, cells = encode i ++ rest

/-- R43, the whole table: the operand count depends on the opcode value alone, and the width is one more. -/
def Obligations.WidthIsAFunctionOfTheOpcode : Prop :=
  ∀ i : Instr, i.operands.length = operandCount i.opcode ∧ i.width = 1 + operandCount i.opcode ∧
    (encode i).length = i.width ∧ (encode i).head? = some (BitVec.ofNat 16 i.opcode) ∧ i.opcode ≤ 21

/-- When decoding rejects, and under which name, in the phase order of R52 to R56 (decisions D11, D12; log entry 13), but
for the second check of R56: decoding does not reject a `set` with a literal destination, whose fault (decision D20) its
meaning raises; that is the model's choice (log entry 19; `OwnFaultConditionsRaise`). -/
def Obligations.DecodeRejectsExactlyTheInvalidCells : Prop :=
  decode [] = .error .noOpcodeCell ∧
    ∀ (op : Cell) (rest : List Cell),
      (decode (op :: rest) = .error (.unknownOpcode op) ↔ 21 < op.toNat) ∧
      (decode (op :: rest) = .error (.operandBeyondEnd op) ↔
        op.toNat ≤ 21 ∧ rest.length < operandCount op.toNat) ∧
      (decode (op :: rest) = .error (.invalidOperand op) ↔
        op.toNat ≤ 21 ∧ operandCount op.toNat ≤ rest.length ∧
          ∃ w ∈ rest.take (operandCount op.toNat), 32776 ≤ w.toNat)

/-- The byte layout of an instruction in an image decodes to it (R50; the meaning of "little-endian" is G2 of
spec/93_implementation_defined.md, log entry 26). That this takes in a `set` with a literal destination, which R47 item 3
and R56 fault and the model faults in its meaning (decision D20), is the model's choice (log entry 19). -/
def Obligations.ImageBytesDecodeToTheInstruction : Prop :=
  ∀ (i : Instr) (rest : List Byte), decodeBytes (bytesOfCells (encode i) ++ rest) = .ok i

/-- Words written out from the encodings of R51, at least one for each family (sanity). -/
def Obligations.WordsOfTheOpcodeMapDecode : Prop :=
  decode [0] = .ok .halt ∧
    decode [1, 32768, 1234] = .ok (.set (.reg 0) (.lit 1234)) ∧
    decode [3, 500] = .ok (.pop (.lit 500)) ∧
    decode [9, 32768, 32769, 4] = .ok (.add (.reg 0) (.reg 1) (.lit 4)) ∧
    decode [7, 32768, 200] = .ok (.jt (.reg 0) (.lit 200)) ∧
    decode [16, 32769, 32770] = .ok (.wmem (.reg 1) (.reg 2)) ∧
    decode [20, 32775] = .ok (.inp (.reg 7))

/-! ### Operand resolution -/

/-- R57: `val(w)` of a raw operand in 0 to 32775 is the value itself for a literal and the register's contents for a
register code, whatever memory holds. -/
def Obligations.ReadResolution : Prop :=
  ∀ (w : Cell) (s : State), w.toNat ≤ 32775 →
    ∃ o, Operand.ofCell w = some o ∧ (w.toNat ≤ 32767 → (s.val o).toNat = w.toNat) ∧
      ∀ r : Fin 8, w.toNat = 32768 + r.val → s.val o = s.reg r

/-- `wr(d, v)` of a raw operand in 0 to 32775: a literal is the one cell written, with the zero extended word; a register
code the one register (R58, R33). Nothing else changes. -/
def Obligations.WriteResolution : Prop :=
  ∀ (w : Cell) (v : Word) (s : State), w.toNat ≤ 32775 →
    ∃ o, Operand.ofCell w = some o ∧
      (w.toNat ≤ 32767 → SameRegs s (s.wr o v) ∧
        ∀ x : Word, ((s.wr o v).cell x).toNat = if x.toNat = w.toNat then v.toNat else (s.cell x).toNat) ∧
      (∀ r : Fin 8, w.toNat = 32768 + r.val → SameMem s (s.wr o v) ∧
        ∀ i : Fin 8, (s.wr o v).reg i = if i = r then v else s.reg i) ∧
      SameRest s (s.wr o v) ∧ (s.wr o v).pc = s.pc

/-! ### Move and stack -/

/-- `set` with a register destination copies the source value and does nothing else (R63). The literal destination is in
`OwnFaultConditionsRaise`. -/
def Obligations.SetCopiesItsSource : Prop :=
  ∀ (r : Fin 8) (b : Operand) (s : State),
    ∃ t, exec (.set (.reg r) b) s = .next t ∧ OnlyWrites (.reg r) (s.val b) 3 s t

/-- R64: `push` adds the source value on top of the stack and cannot overflow; a `pop` directly after it writes that
value to its destination and leaves the stack as it was before the `push`. -/
def Obligations.PushAddsItsSourceOnTop : Prop :=
  ∀ (a : Operand) (s : State),
    encode (.push a) = [2, a.toCell] ∧
      ∃ t, exec (.push a) s = .next t ∧ t.stack = s.val a :: s.stack ∧ t.pc = s.pc + 2 ∧
        SameRegs s t ∧ SameMem s t ∧ t.status = s.status ∧ t.out = s.out ∧ t.input = s.input ∧
        ∀ d : Operand, ∃ u, exec (.pop d) t = .next u ∧ u.stack = s.stack ∧ Writes d (s.val a) s u

/-- `pop` on a stack that is not empty removes its top and writes it to the destination, register or cell (R65). The
empty stack is in `OwnFaultConditionsRaise`. -/
def Obligations.PopWritesTheTopOfTheStack : Prop :=
  ∀ (a : Operand) (top : Word) (rest : List Word) (s : State), s.stack = top :: rest →
    ∃ t, exec (.pop a) s = .next t ∧ t.stack = rest ∧ Writes a top s t ∧ t.pc = s.pc + 2 ∧
      t.status = s.status ∧ t.out = s.out ∧ t.input = s.input

/-! ### Compare, arithmetic and logic -/

/-- R67 and R68: `eq` and `gt` write 1 or 0; the comparison is of unsigned values. -/
def Obligations.EqAndGtWriteOneOrZero : Prop :=
  ∀ (a b c : Operand) (s : State),
    (encode (.eq a b c) = [4, a.toCell, b.toCell, c.toCell] ∧
      ∃ t, exec (.eq a b c) s = .next t ∧
        OnlyWrites a (if (s.val b).toNat = (s.val c).toNat then 1 else 0) 4 s t) ∧
    (encode (.gt a b c) = [5, a.toCell, b.toCell, c.toCell] ∧
      ∃ t, exec (.gt a b c) s = .next t ∧
        OnlyWrites a (if (s.val b).toNat > (s.val c).toNat then 1 else 0) 4 s t)

/-- R69 and R70: `add` and `mult` write the exact sum and the exact product modulo 32768. -/
def Obligations.AddAndMultAreModulo32768 : Prop :=
  ∀ (a b c : Operand) (s : State),
    (encode (.add a b c) = [9, a.toCell, b.toCell, c.toCell] ∧
      ∃ t v, exec (.add a b c) s = .next t ∧ v.toNat = ((s.val b).toNat + (s.val c).toNat) % 32768 ∧
        OnlyWrites a v 4 s t) ∧
    (encode (.mult a b c) = [10, a.toCell, b.toCell, c.toCell] ∧
      ∃ t v, exec (.mult a b c) s = .next t ∧ v.toNat = ((s.val b).toNat * (s.val c).toNat) % 32768 ∧
        OnlyWrites a v 4 s t)

/-- `mod` writes the unsigned remainder; a divisor value of 0 raises `DivisionByZero` and changes nothing else (R71, R95;
decision D13, log entry 14). -/
def Obligations.ModWritesTheRemainderOrFaults : Prop :=
  ∀ (a b c : Operand) (s : State),
    encode (.mod a b c) = [11, a.toCell, b.toCell, c.toCell] ∧
    ((s.val c).toNat ≠ 0 →
      ∃ t v, exec (.mod a b c) s = .next t ∧ v.toNat = (s.val b).toNat % (s.val c).toNat ∧ OnlyWrites a v 4 s t) ∧
    ((s.val c).toNat = 0 → exec (.mod a b c) s = .next (faulted s .divisionByZero (some 11)))

/-- R72, R73 and R74: `and`, `or` and `not` bit by bit over bits 14 to 0. -/
def Obligations.AndOrNotAreBitwise : Prop :=
  ∀ (a b c : Operand) (s : State),
    (encode (.and a b c) = [12, a.toCell, b.toCell, c.toCell] ∧
      ∃ t v, exec (.and a b c) s = .next t ∧
        (∀ k < 15, v.getLsbD k = ((s.val b).getLsbD k && (s.val c).getLsbD k)) ∧ OnlyWrites a v 4 s t) ∧
    (encode (.or a b c) = [13, a.toCell, b.toCell, c.toCell] ∧
      ∃ t v, exec (.or a b c) s = .next t ∧
        (∀ k < 15, v.getLsbD k = ((s.val b).getLsbD k || (s.val c).getLsbD k)) ∧ OnlyWrites a v 4 s t) ∧
    (encode (.not a b) = [14, a.toCell, b.toCell] ∧
      ∃ t v, exec (.not a b) s = .next t ∧
        (∀ k < 15, v.getLsbD k = !(s.val b).getLsbD k) ∧ OnlyWrites a v 3 s t)

/-- The source's property of R74: the 15-bit complement is self-inverse. The second `not` reads what the first wrote. -/
def Obligations.NotTwiceGivesTheValueBack : Prop :=
  ∀ (r : Fin 8) (d b : Operand) (s : State),
    ∃ t u, exec (.not (.reg r) b) s = .next t ∧ exec (.not d (.reg r)) t = .next u ∧ Writes d (s.val b) t u ∧
      (t.reg r).toNat = 32767 - (s.val b).toNat

/-! ### Control -/

/-- `halt` sets the status to `Halted` and changes nothing else (R76). That `pc` stays is decision D14 (log entry 15). -/
def Obligations.HaltChangesTheStatusOnly : Prop :=
  ∀ s : State, ∃ t, exec .halt s = .next t ∧ t.Successful ∧ t.pc = s.pc ∧ SameRegs s t ∧ SameMem s t ∧
    t.stack = s.stack ∧ t.out = s.out ∧ t.input = s.input

/-- R77, R78 and R79: `jmp`, `jt` and `jf` set `pc` to a source value or advance by 3, and change nothing else. -/
def Obligations.JumpsSetThePc : Prop :=
  ∀ (a b : Operand) (s : State),
    (encode (.jmp a) = [6, a.toCell] ∧
      ∃ t, exec (.jmp a) s = .next t ∧ t.pc.toNat = (s.val a).toNat ∧ SameRegs s t ∧ SameMem s t ∧ SameRest s t) ∧
    (encode (.jt a b) = [7, a.toCell, b.toCell] ∧
      ∃ t, exec (.jt a b) s = .next t ∧ SameRegs s t ∧ SameMem s t ∧ SameRest s t ∧
        ((s.val a).toNat ≠ 0 → t.pc.toNat = (s.val b).toNat) ∧ ((s.val a).toNat = 0 → t.pc = s.pc + 3)) ∧
    (encode (.jf a b) = [8, a.toCell, b.toCell] ∧
      ∃ t, exec (.jf a b) s = .next t ∧ SameRegs s t ∧ SameMem s t ∧ SameRest s t ∧
        ((s.val a).toNat = 0 → t.pc.toNat = (s.val b).toNat) ∧ ((s.val a).toNat ≠ 0 → t.pc = s.pc + 3))

/-- `call` below address 32766 pushes the return address `pc + 2` and jumps (R80). From 32766 on it is in
`OwnFaultConditionsRaise` (decision D4; log entry 11). -/
def Obligations.CallPushesTheReturnAddress : Prop :=
  ∀ (a : Operand) (s : State), s.pc.toNat + 2 ≤ 32767 →
    ∃ t v, exec (.call a) s = .next t ∧ t.stack = v :: s.stack ∧ v.toNat = s.pc.toNat + 2 ∧
      t.pc.toNat = (s.val a).toNat ∧ SameRegs s t ∧ SameMem s t ∧ t.status = s.status ∧ t.out = s.out ∧
      t.input = s.input

/-- `ret` on a stack that is not empty pops its top into `pc` and changes nothing else (R81). -/
def Obligations.RetPopsIntoThePc : Prop :=
  ∀ (top : Word) (rest : List Word) (s : State), s.stack = top :: rest →
    ∃ t, exec .ret s = .next t ∧ t.stack = rest ∧ t.pc.toNat = top.toNat ∧ SameRegs s t ∧ SameMem s t ∧
      t.status = s.status ∧ t.out = s.out ∧ t.input = s.input

/-- The source's property of R80: a `call` followed by a `ret` leaves everything as it was, with `pc` directly after the
`call`. The premise leaves out the `call` that faults (decision D4; log entry 11). -/
def Obligations.CallThenRetResumesAfterTheCall : Prop :=
  ∀ (a : Operand) (s : State), s.pc.toNat + 2 ≤ 32767 →
    ∃ t u, exec (.call a) s = .next t ∧ exec .ret t = .next u ∧ u = { s with pc := s.pc + 2 }

/-- R82: `noop` advances `pc` by 1 and changes nothing else. -/
def Obligations.NoopAdvancesThePcOnly : Prop :=
  encode .noop = [21] ∧
    ∀ s : State, ∃ t, exec .noop s = .next t ∧ t.pc = s.pc + 1 ∧ SameRegs s t ∧ SameMem s t ∧ SameRest s t

/-! ### Load and store -/

/-- `rmem` of a cell that holds a word writes that word to the destination (R85). A cell above 32767 is in
`OwnFaultConditionsRaise` (decision D3; log entry 10). -/
def Obligations.RmemLoadsTheCell : Prop :=
  ∀ (a b : Operand) (s : State), (s.cell (s.val b)).toNat ≤ 32767 →
    ∃ t v, exec (.rmem a b) s = .next t ∧ v.toNat = (s.cell (s.val b)).toNat ∧ OnlyWrites a v 3 s t

/-- R86: `wmem` stores the value of `b` in the cell whose address is the value of `a` and writes no register; a store to
`pc + 3` changes the opcode of the very next instruction. -/
def Obligations.WmemStoresOneCell : Prop :=
  ∀ (a b : Operand) (s : State),
    encode (.wmem a b) = [16, a.toCell, b.toCell] ∧
      ∃ t, exec (.wmem a b) s = .next t ∧ t.pc = s.pc + 3 ∧ SameRegs s t ∧ SameRest s t ∧
        (t.cell (s.val a)).toNat = (s.val b).toNat ∧ (∀ x, x ≠ s.val a → t.cell x = s.cell x) ∧
        ((s.val a).toNat = t.pc.toNat → t.fetchCells.head? = some (Word.toCell (s.val b)))

/-! ### Character output and input -/

/-- `out` appends the whole source word to `OUT`, after the words emitted before, and never waits (R87, R39; decision
D18, log entry 17). -/
def Obligations.OutAppendsTheWord : Prop :=
  ∀ (a : Operand) (s : State),
    ∃ t, exec (.out a) s = .next t ∧ t.out = s.out ++ [s.val a] ∧ t.pc = s.pc + 2 ∧ SameRegs s t ∧ SameMem s t ∧
      t.stack = s.stack ∧ t.status = s.status ∧ t.input = s.input

/-- `in` with a byte available consumes one byte. A byte other than 13 is written to the destination; 13 is swallowed
and writes nothing (R88, R9; decision D16, log entry 8). -/
def Obligations.InConsumesOneByte : Prop :=
  ∀ (a : Operand) (ch : Byte) (rest : List Byte) (s : State), s.input = ch :: rest →
    ∃ t, exec (.inp a) s = .next t ∧ t.input = rest ∧ t.pc = s.pc + 2 ∧ t.stack = s.stack ∧ t.status = s.status ∧
      t.out = s.out ∧ (ch.toNat = 13 → SameRegs s t ∧ SameMem s t) ∧
      (ch.toNat ≠ 13 → ∃ v, v.toNat = ch.toNat ∧ Writes a v s t)

/-- With `IN_CR_SWALLOW = false` "the value 13 is written like any other" (R88): the operation behind `in`, with the
parameter's other value (decision D16, log entry 8). -/
def Obligations.WithoutSwallowEveryByteIsWritten : Prop :=
  ∀ (a : Operand) (ch : Byte) (rest : List Byte) (s : State), s.input = ch :: rest →
    (inputByte false a s).input = rest ∧ (inputByte false a s).pc = s.pc + 2 ∧
      ∃ v, v.toNat = ch.toNat ∧ Writes a v s (inputByte false a s)

/-- Waiting changes nothing, and a supplied byte ends it: the next step consumes that byte and goes on (R88, R106). That
the wait is a step that keeps the state is the model's choice (log entry 7). -/
def Obligations.WaitingEndsWithASuppliedByte : Prop :=
  ∀ s : State, s.Waiting → step s = .next s ∧
    ∀ b : Byte, ∃ t, step (s.supply b) = .next t ∧ t.input = [] ∧ t.status = .running ∧ t.pc = s.pc + 2 ∧
      ∃ a, s.fetch = .ok (.inp a) ∧ (b.toNat ≠ 13 → ∃ v, v.toNat = b.toNat ∧ Writes a v s t)

/-! ### Faults and the end of a run -/

/-- The own fault condition of each instruction that has one raises its kind with its opcode recorded, and changes
nothing else (R63, R65, R71, R80, R81, R85, R100; decisions D3, D4, D13, D20, D23; log entries 10, 11, 14, 19, 20). -/
def Obligations.OwnFaultConditionsRaise : Prop :=
  ∀ (v : Word) (a b c : Operand) (s : State),
    exec (.set (.lit v) b) s = .next (faulted s .invalidRegister (some 1)) ∧
    (s.stack = [] → exec (.pop a) s = .next (faulted s .stackUnderflow (some 3)) ∧
      exec .ret s = .next (faulted s .stackUnderflow (some 18))) ∧
    ((s.val c).toNat = 0 → exec (.mod a b c) s = .next (faulted s .divisionByZero (some 11))) ∧
    (32767 < (s.cell (s.val b)).toNat → exec (.rmem a b) s = .next (faulted s .invalidWord (some 15))) ∧
    (32767 < s.pc.toNat + 2 → exec (.call a) s = .next (faulted s .addressOutOfRange (some 17)))

/-- Which instruction can raise which kind after phase 4: the own conditions of the table of R98, with the instruction's
opcode recorded. -/
def Obligations.EachInstructionRaisesOnlyItsOwnKind : Prop :=
  ∀ (i : Instr) (s t : State) (kind : FaultKind) (p : Cell) (o : Option Cell),
    s.status = .running → exec i s = .next t → t.status = .fault kind p o →
      o = some i.opcodeCell ∧ p = s.pc ∧
        ((kind = .invalidRegister ∧ ∃ v b, i = .set (.lit v) b) ∨
          (kind = .stackUnderflow ∧ s.stack = [] ∧ ((∃ a, i = .pop a) ∨ i = .ret)) ∨
          (kind = .divisionByZero ∧ ∃ a b c, i = .mod a b c ∧ (s.val c).toNat = 0) ∨
          (kind = .addressOutOfRange ∧ 32767 < s.pc.toNat + 2 ∧ ∃ a, i = .call a) ∨
          (kind = .invalidWord ∧ ∃ a b, i = .rmem a b ∧ 32767 < (s.cell (s.val b)).toNat))

/-- R53: with `pc` above 32767 the opcode fetch raises `AddressOutOfRange` with no opcode recorded; otherwise the opcode
is the full 16-bit cell at `pc`. That `pc` does not wrap is decision D5 (log entry 12); that nothing but the status
changes is decision D13 (log entry 14). -/
def Obligations.OpcodeFetchBeyondMemoryFaults : Prop :=
  ∀ s : State, s.status = .running →
    (32767 < s.pc.toNat → step s = .next (faulted s .addressOutOfRange none)) ∧
      (s.pc.toNat ≤ 32767 → s.fetchCells.head? = some (cellAt s 0))

/-- R92: a step raises `UnknownInstruction` exactly when the opcode cell holds a value above 21, and records that value
and its address; that nothing else changes is decision D13 (log entry 14). -/
def Obligations.UnknownInstructionExactlyAbove21 : Prop :=
  ∀ s : State, s.status = .running →
    ((∃ t p o, step s = .next t ∧ t.status = .fault .unknownInstruction p o) ↔
      s.pc.toNat ≤ 32767 ∧ 21 < (cellAt s 0).toNat) ∧
    (s.pc.toNat ≤ 32767 → 21 < (cellAt s 0).toNat →
      step s = .next (faulted s .unknownInstruction (some (cellAt s 0))))

/-- An instruction whose operand cells do not all fit below address 32768 raises `AddressOutOfRange`, whatever the cells
hold (R55; decisions D11, D13; log entries 13, 14). -/
def Obligations.OperandsBeyondMemoryFault : Prop :=
  ∀ s : State, s.status = .running → s.pc.toNat ≤ 32767 → (cellAt s 0).toNat ≤ 21 →
    32767 < s.pc.toNat + operandCount (cellAt s 0).toNat →
      step s = .next (faulted s .addressOutOfRange (some (cellAt s 0)))

/-- An operand cell of 32776 or more raises `InvalidRegister`, in any role, used or not, and before the instruction's own
condition and the wait of `in` (R56, R99; decisions D11, D12, D13, D24; log entries 13, 14). -/
def Obligations.InvalidOperandCellFaults : Prop :=
  ∀ s : State, s.status = .running → (cellAt s 0).toNat ≤ 21 →
    s.pc.toNat + operandCount (cellAt s 0).toNat ≤ 32767 →
      (∃ k, 1 ≤ k ∧ k ≤ operandCount (cellAt s 0).toNat ∧ 32776 ≤ (cellAt s k).toNat) →
        step s = .next (faulted s .invalidRegister (some (cellAt s 0)))

/-- Where the opcode is known, the cells fit and no operand cell is invalid, the step runs the instruction those cells
encode (R52). These cells may be a `set` with a literal destination: the second check of R56, in phase 4, is then still
to come, and the model makes it in the meaning of `set` (decision D20; the model's choice, log entry 19). -/
def Obligations.ValidCellsRunTheirInstruction : Prop :=
  ∀ s : State, s.status = .running → (cellAt s 0).toNat ≤ 21 →
    s.pc.toNat + operandCount (cellAt s 0).toNat ≤ 32767 →
      (∀ k, 1 ≤ k → k ≤ operandCount (cellAt s 0).toNat → (cellAt s k).toNat ≤ 32775) →
        ∃ i, encode i = (List.range (1 + operandCount (cellAt s 0).toNat)).map (cellAt s) ∧ step s = exec i s

/-- Faults are precise: the fault record is the address and the value of the opcode cell (none if there is no such cell),
and nothing but the status changes (R60, R100; decisions D10, D13; log entries 5, 14). -/
def Obligations.FaultsArePrecise : Prop :=
  ∀ (s t : State) (kind : FaultKind) (p : Cell) (o : Option Cell),
    s.status = .running → step s = .next t → t.status = .fault kind p o →
      p = s.pc ∧ o = (if s.pc.toNat ≤ 32767 then some (cellAt s 0) else none) ∧ t = faulted s kind o

/-- R91: a step reaches `Halted` exactly by executing a `halt`, and then there is no fault record. -/
def Obligations.OnlyHaltReachesHalted : Prop :=
  ∀ s t : State, s.status = .running → step s = .next t →
    (t.status = .halted ↔ s.pc.toNat ≤ 32767 ∧ cellAt s 0 = 0)

/-- Once the status is terminal no step changes any state, however many are asked for (R20, R101, R111; decision D22, log
entry 6). -/
def Obligations.TerminalStatesAreForEver : Prop :=
  ∀ (k : Nat) (s : State), s.Ended → run k s = .next s

/-! ### The step and the whole machine -/

/-- A step runs the instruction decoded at `pc` (R52), a `set` with a literal destination included, whose fault its meaning
raises (log entry 19). -/
def Obligations.StepRunsTheDecodedInstruction : Prop :=
  ∀ (i : Instr) (s : State), s.status = .running → decode s.fetchCells = .ok i → step s = exec i s

/-- When the cells at `pc` are the encoding of an instruction, the step runs it: execution takes the instruction out of
memory at `pc` (R19, R41, R52). A `set` with a literal destination is included; its meaning raises its fault (log entry
19). -/
def Obligations.StepRunsTheInstructionInMemory : Prop :=
  ∀ (i : Instr) (s : State), s.status = .running → s.pc.toNat + i.width ≤ 32768 →
    (∀ k c, (encode i)[k]? = some c → cellAt s k = c) → step s = exec i s

/-- Every step of every state has a next state: the machine stops only by its own status, never outside it (R100, R115).
Three parts of this are choices: that a terminal state is its own next state (decision D22, log entry 6; R52 says that it
has no step), that the wait of `in` counts as a step that keeps the state (log entry 7), and that no meaning stops by a
fault or a refusal of the model (log entry 24). -/
def Obligations.EveryStateHasANextState : Prop :=
  ∀ s : State, ∃ t, step s = .next t

/-- The frame of every instruction: memory changes at most at the address it stores to, and registers at most at its
register destination (R14, R29, R58, R86). -/
def Obligations.OnlyTheDestinationChanges : Prop :=
  ∀ (i : Instr) (s t : State), exec i s = .next t →
    (∀ x, storedTo i s ≠ some x → t.cell x = s.cell x) ∧ ∀ r, writtenReg i ≠ some r → t.reg r = s.reg r

/-- "An instruction can therefore never create a cell value above 32767" (R33): a step leaves a cell as it is or gives it
a word. -/
def Obligations.StepsStoreOnlyWords : Prop :=
  ∀ s t : State, step s = .next t → ∀ x, t.cell x = s.cell x ∨ (t.cell x).toNat ≤ 32767

/-- The stack changes at its top only (R18): if an instruction changes it, then a `push` or a `call` has added one element,
or a `pop` or a `ret` has removed one. When each of these does so is in its own statement. -/
def Obligations.TheStackChangesAtItsTopOnly : Prop :=
  ∀ (i : Instr) (s t : State), exec i s = .next t →
    t.stack = s.stack ∨
      (((∃ a, i = .push a) ∨ ∃ a, i = .call a) ∧ ∃ v, t.stack = v :: s.stack) ∨
        (((∃ a, i = .pop a) ∨ i = .ret) ∧ ∃ v, s.stack = v :: t.stack)

/-- `OUT` grows by `out` only, at its end, and `INPUT` shrinks by `in` only, at its front (R22, R39). -/
def Obligations.StreamsMoveByOutAndInOnly : Prop :=
  ∀ (i : Instr) (s t : State), exec i s = .next t →
    (t.out = s.out ∨ ∃ a, i = .out a ∧ t.out = s.out ++ [s.val a]) ∧
      (t.input = s.input ∨ ∃ a b, i = .inp a ∧ s.input = b :: t.input)

/-- Nothing but the host reads `OUT` (R22): two states that differ only in `OUT` step to states that differ only in
`OUT`, and emit the same words. -/
def Obligations.NothingReadsTheOutput : Prop :=
  ∀ s t : State, step s = .next t →
    ∃ emitted, t.out = s.out ++ emitted ∧
      ∀ o : List Word, step { s with out := o } = .next { t with out := o ++ emitted }

/-- The host may append an input byte at any time (R22, R116): except where the machine waits for one, it makes no
difference whether the byte arrives before a step or after it. -/
def Obligations.SuppliedInputCommutesWithAStep : Prop :=
  ∀ (s t : State) (b : Byte), ¬s.Waiting → step s = .next t → step (s.supply b) = .next (t.supply b)

/-- Fetch reads the very cells that data accesses read and stores write, up to the last cell, so a store is seen by every
later fetch with nothing in between (R19, R37). -/
def Obligations.FetchReadsTheCellsThatStoresWrite : Prop :=
  ∀ (s : State) (k : Nat) (x : Word), k < 4 → s.pc.toNat + k = x.toNat → s.fetchCells[k]? = some (s.cell x)

/-- An instruction that is not a control transfer, when it neither faults nor waits, advances `pc` by its width (R59). -/
def Obligations.SequentialInstructionsAdvanceByTheirWidth : Prop :=
  ∀ (i : Instr) (s t : State), isControl i = false → s.status = .running → exec i s = .next t →
    t.status = .running → (∃ a, i = .inp a ∧ s.input = []) ∨ t.pc = s.pc + BitVec.ofNat 16 i.width

/-- `pc` leaves 0 to 32767 only by the sequential advance of an instruction whose last cell is cell 32767, and then it is
32768 (R16, R24 item 3, R83; decision D5, log entry 12). -/
def Obligations.ThePcLeavesMemoryOnlyAtItsEnd : Prop :=
  ∀ s t : State, s.pc.toNat ≤ 32767 → step s = .next t → 32767 < t.pc.toNat →
    t.pc.toNat = 32768 ∧ ∃ i, s.fetch = .ok i ∧ s.pc.toNat + i.width = 32768

/-- The invariant is kept by every step from every state that has it: memory stays in its canonical form, `pc` stays in 0
to 32768, and a fault record stays that of the `pc` at which the machine stopped (R16, R24, R100; decisions D5, D10,
D14; log entries 1, 5, 12, 15). -/
def Obligations.EveryStepKeepsTheInvariant : Prop :=
  ∀ s t : State, s.Inv → step s = .next t → t.Inv

/-- The invariant holds after a reset with any image and any input (R25, R107). -/
def Obligations.EveryLoadHasTheInvariant : Prop :=
  ∀ image input : List Byte, (State.load image input).Inv

/-- The invariant holds of the reset state (R25). -/
def Obligations.ResetHasTheInvariant : Prop := State.reset.Inv

/-- The state after a reset with an image (R25, R107, R108): registers 0, `pc` 0, the stack and `OUT` empty, `Running`,
the input as supplied, and each cell its two image bytes, low byte first, where the image has them, else 0 (decisions
D6, D7, D19 and G2; log entries 3, 4, 18, 26). -/
def Obligations.LoadFillsMemoryFromTheImage : Prop :=
  ∀ image input : List Byte,
    (∀ r, ((State.load image input).reg r).toNat = 0) ∧ (State.load image input).pc.toNat = 0 ∧
      (State.load image input).stack = [] ∧ (State.load image input).out = [] ∧
      (State.load image input).status = .running ∧ (State.load image input).input = input ∧
      ∀ x : Word, ((State.load image input).cell x).toNat =
        if 2 * x.toNat + 1 < image.length then
          (image.getD (2 * x.toNat) 0).toNat + 256 * (image.getD (2 * x.toNat + 1) 0).toNat
        else 0

/-- Equal memories are equal data: two memories in canonical form that read the same at every cell are the same list
(R13, R19; the form is the model's choice, log entry 1). -/
def Obligations.CanonicalMemoriesAreDeterminedByTheirCells : Prop :=
  ∀ m m' : Memory, Memory.wf m → Memory.wf m' →
    (∀ a, a < 32768 → Memory.readCell m a = Memory.readCell m' a) → m = m'
end

