-- ==== Sys2Proof/Laws/Memory.lean ====
section
/-!
SUPPORT. The laws of memory: a read after a write (spec/20_memory.md R29, R35), and that every operation keeps the
canonical form. Reads need no premise; only the canonical form itself does.
-/

namespace Sys2Proof.Machine

/-! ### Bytes -/

@[simp] theorem Memory.readByte_nil (k : Nat) : Memory.readByte [] k = Memory.unlisted := rfl

theorem Memory.readByte_filter_self (m : Memory) (k : Nat) :
    Memory.readByte (m.filter fun p => p.1 != k) k = Memory.unlisted := by
  induction m with
  | nil => rfl
  | cons p rest ih =>
    by_cases hp : p.1 = k
    · simpa [List.filter, hp] using ih
    · have : (p.1 != k) = true := by simpa using hp
      simpa [List.filter, this, Memory.readByte, hp] using ih

theorem Memory.readByte_filter_ne (m : Memory) {k j : Nat} (h : j ≠ k) :
    Memory.readByte (m.filter fun p => p.1 != k) j = Memory.readByte m j := by
  induction m with
  | nil => rfl
  | cons p rest ih =>
    by_cases hp : p.1 = k
    · have hj : p.1 ≠ j := by omega
      simpa [List.filter, hp, Memory.readByte, hj, Ne.symm h] using ih
    · have : (p.1 != k) = true := by simpa using hp
      simp [List.filter, this, Memory.readByte, ih]

theorem Memory.readByte_insertByte_self (m : Memory) (k : Nat) (b : Byte) (h : ∀ p ∈ m, p.1 ≠ k) :
    Memory.readByte (Memory.insertByte m k b) k = b := by
  induction m with
  | nil => simp [Memory.insertByte, Memory.readByte]
  | cons p rest ih =>
    unfold Memory.insertByte
    split
    · simp [Memory.readByte]
    · have hp := h p (by simp)
      simpa [Memory.readByte, hp] using ih fun q hq => h q (by simp [hq])

theorem Memory.readByte_insertByte_ne (m : Memory) {k j : Nat} (b : Byte) (h : j ≠ k) :
    Memory.readByte (Memory.insertByte m k b) j = Memory.readByte m j := by
  induction m with
  | nil => simp [Memory.insertByte, Memory.readByte, Ne.symm h]
  | cons p rest ih =>
    unfold Memory.insertByte
    split
    · simp [Memory.readByte, Ne.symm h]
    · simp [Memory.readByte, ih]

/-- A byte read after a byte write: the value written at its offset, the old value at every other. -/
theorem Memory.readByte_writeByte (m : Memory) (k j : Nat) (b : Byte) :
    Memory.readByte (Memory.writeByte m k b) j = if j = k then b else Memory.readByte m j := by
  unfold Memory.writeByte
  by_cases hj : j = k
  · subst hj
    by_cases hb : b = Memory.unlisted
    · simp [hb, Memory.readByte_filter_self]
    · simpa [hb] using Memory.readByte_insertByte_self _ j b (by simp)
  · by_cases hb : b = Memory.unlisted
    · simp [hb, hj, Memory.readByte_filter_ne m hj]
    · simp [hb, hj, Memory.readByte_insertByte_ne _ b hj, Memory.readByte_filter_ne m hj]

/-! ### Cells -/

/-- The value of a cell from its two image bytes (R27, R108). -/
theorem cellOfBytes_toNat (lo hi : Byte) : (cellOfBytes lo hi).toNat = lo.toNat + 256 * hi.toNat := by
  have h := Nat.two_pow_add_eq_or_of_lt lo.isLt hi.toNat
  unfold cellOfBytes
  rw [BitVec.toNat_append, Nat.shiftLeft_eq, Nat.mul_comm, ← h]
  omega

theorem loByte_toNat (c : Cell) : (loByte c).toNat = c.toNat % 256 := by simp [loByte]

theorem hiByte_toNat (c : Cell) : (hiByte c).toNat = c.toNat / 256 := by
  have := c.isLt
  simp only [hiByte, BitVec.toNat_setWidth, BitVec.toNat_ushiftRight, Nat.shiftRight_eq_div_pow]
  omega

@[simp] theorem cellOfBytes_lo_hi (c : Cell) : cellOfBytes (loByte c) (hiByte c) = c := by
  apply BitVec.eq_of_toNat_eq
  rw [cellOfBytes_toNat, loByte_toNat, hiByte_toNat]
  omega

@[simp] theorem loByte_cellOfBytes (lo hi : Byte) : loByte (cellOfBytes lo hi) = lo := by
  apply BitVec.eq_of_toNat_eq
  rw [loByte_toNat, cellOfBytes_toNat]
  omega

@[simp] theorem hiByte_cellOfBytes (lo hi : Byte) : hiByte (cellOfBytes lo hi) = hi := by
  apply BitVec.eq_of_toNat_eq
  rw [hiByte_toNat, cellOfBytes_toNat]
  omega

@[simp] theorem Memory.readCell_nil (a : Nat) : Memory.readCell [] a = 0 := by
  simp [Memory.readCell, Memory.unlisted, cellOfBytes]

/-- A cell read after a cell write: "a write changes that cell only" (R29). -/
theorem Memory.readCell_writeCell (m : Memory) (a x : Nat) (v : Cell) :
    Memory.readCell (Memory.writeCell m a v) x = if x = a then v else Memory.readCell m x := by
  unfold Memory.readCell Memory.writeCell
  simp only [Memory.readByte_writeByte]
  by_cases h : x = a
  · subst h
    simp
  · have h1 : 2 * x ≠ 2 * a + 1 := by omega
    have h2 : 2 * x ≠ 2 * a := by omega
    have h3 : 2 * x + 1 ≠ 2 * a + 1 := by omega
    have h4 : 2 * x + 1 ≠ 2 * a := by omega
    simp [h, h1]
    grind

/-! ### The canonical form -/

theorem Memory.wf_nil : Memory.wf [] := by simp [Memory.wf]

theorem Memory.wf_filter {m : Memory} (f : Host.Cell → Bool) (h : Memory.wf m) : Memory.wf (m.filter f) :=
  ⟨h.1.filter f, fun p hp => h.2 p (List.mem_of_mem_filter hp)⟩

theorem Memory.mem_insertByte {m : Memory} {k : Nat} {b : Byte} {p : Host.Cell}
    (h : p ∈ Memory.insertByte m k b) : p = (k, b) ∨ p ∈ m := by
  induction m with
  | nil => simpa [Memory.insertByte] using h
  | cons q rest ih =>
    unfold Memory.insertByte at h
    split at h
    · simpa using h
    · rcases List.mem_cons.mp h with h | h
      · simp [h]
      · rcases ih h with h | h <;> simp [h]

theorem Memory.pairwise_insertByte {m : Memory} {k : Nat} (b : Byte) (h : m.Pairwise fun p q => p.1 < q.1)
    (hk : ∀ p ∈ m, p.1 ≠ k) : (Memory.insertByte m k b).Pairwise fun p q => p.1 < q.1 := by
  induction m with
  | nil => simp [Memory.insertByte]
  | cons p rest ih =>
    have ⟨hp, hrest⟩ := List.pairwise_cons.mp h
    unfold Memory.insertByte
    split
    · rename_i hlt
      refine List.pairwise_cons.mpr ⟨fun q hq => ?_, h⟩
      rcases List.mem_cons.mp hq with rfl | hq
      · exact hlt
      · exact Nat.lt_trans hlt (hp q hq)
    · rename_i hge
      have hne := hk p (by simp)
      refine List.pairwise_cons.mpr ⟨fun q hq => ?_, ih hrest fun q hq => hk q (by simp [hq])⟩
      rcases Memory.mem_insertByte hq with rfl | hq
      · show p.1 < k
        omega
      · exact hp q hq

/-- A byte write inside the array keeps the canonical form. -/
theorem Memory.wf_writeByte {m : Memory} {k : Nat} (b : Byte) (h : Memory.wf m) (hk : k < 2 * Config.memCells) :
    Memory.wf (Memory.writeByte m k b) := by
  have hf := Memory.wf_filter (fun p => p.1 != k) h
  unfold Memory.writeByte
  by_cases hb : b = Memory.unlisted
  · simpa [hb] using hf
  · simp only [hb, if_false]
    refine ⟨Memory.pairwise_insertByte b hf.1 (by simp), fun p hp => ?_⟩
    rcases Memory.mem_insertByte hp with rfl | hp
    · exact ⟨hb, hk⟩
    · exact hf.2 p hp

/-- A cell write inside the array keeps the canonical form. -/
theorem Memory.wf_writeCell {m : Memory} {a : Nat} (v : Cell) (h : Memory.wf m) (ha : a < Config.memCells) :
    Memory.wf (Memory.writeCell m a v) :=
  Memory.wf_writeByte _ (Memory.wf_writeByte _ h (by omega)) (by omega)

/-- Placing cells keeps the canonical form: what lies beyond the last cell is not stored. -/
theorem Memory.wf_placeCells {m : Memory} (a : Nat) (cells : List Cell) (h : Memory.wf m) :
    Memory.wf (Memory.placeCells m a cells) := by
  induction cells generalizing m a with
  | nil => exact h
  | cons c rest ih =>
    unfold Memory.placeCells
    split
    · exact ih _ (Memory.wf_writeCell c h ‹_›)
    · exact ih _ h

/-! ### The image load -/

theorem Memory.mem_listing {k : Nat} {bytes : List Byte} {p : Host.Cell} (h : p ∈ Memory.listing k bytes) :
    k ≤ p.1 ∧ p.1 < k + bytes.length ∧ p.2 ≠ Memory.unlisted := by
  induction bytes generalizing k with
  | nil => simp [Memory.listing] at h
  | cons b rest ih =>
    have later (hp : p ∈ Memory.listing (k + 1) rest) :
        k ≤ p.1 ∧ p.1 < k + (b :: rest).length ∧ p.2 ≠ Memory.unlisted := by
      have := ih hp
      simp only [List.length_cons]
      exact ⟨by omega, by omega, this.2.2⟩
    unfold Memory.listing at h
    split at h
    · exact later h
    · rename_i hb
      rcases List.mem_cons.mp h with rfl | h
      · exact ⟨Nat.le_refl _, by simp, hb⟩
      · exact later h

theorem Memory.pairwise_listing (k : Nat) (bytes : List Byte) :
    (Memory.listing k bytes).Pairwise fun p q => p.1 < q.1 := by
  induction bytes generalizing k with
  | nil => simp [Memory.listing]
  | cons b rest ih =>
    unfold Memory.listing
    split
    · exact ih _
    · exact List.pairwise_cons.mpr ⟨fun q hq => (Memory.mem_listing hq).1, ih _⟩

theorem Memory.readByte_listing (k j : Nat) (bytes : List Byte) :
    Memory.readByte (Memory.listing k bytes) (k + j) = bytes.getD j Memory.unlisted := by
  induction bytes generalizing k j with
  | nil => simp [Memory.listing]
  | cons b rest ih =>
    have zero : Memory.readByte (Memory.listing (k + 1) rest) k = Memory.unlisted := by
      have above : ∀ p ∈ Memory.listing (k + 1) rest, p.1 ≠ k := fun p hp => by
        have := Memory.mem_listing hp
        omega
      have same : (Memory.listing (k + 1) rest).filter (fun p => p.1 != k) = Memory.listing (k + 1) rest :=
        List.filter_eq_self.mpr (by simpa using above)
      exact same ▸ Memory.readByte_filter_self _ _
    unfold Memory.listing
    cases j with
    | zero =>
      split
      · simp [*]
      · simp [Memory.readByte]
    | succ j =>
      have next := ih (k + 1) j
      rw [show k + 1 + j = k + (j + 1) from by omega] at next
      split
      · simpa using next
      · simpa [Memory.readByte] using next

/-- The byte at an offset after a load: the image's, where the image has a whole cell there below address 32768, and 0
everywhere else (R108). -/
theorem Memory.readByte_ofImage (image : List Byte) (k : Nat) :
    Memory.readByte (Memory.ofImage image) k =
      (image.take (2 * min (image.length / 2) Config.memCells)).getD k Memory.unlisted := by
  simpa [Memory.ofImage] using Memory.readByte_listing 0 k _

/-- The load gives a memory in canonical form. -/
theorem Memory.wf_ofImage (image : List Byte) : Memory.wf (Memory.ofImage image) := by
  refine ⟨Memory.pairwise_listing _ _, fun p hp => ?_⟩
  have h := Memory.mem_listing hp
  have : (image.take (2 * min (image.length / 2) Config.memCells)).length ≤ 2 * Config.memCells := by
    simp only [List.length_take]
    omega
  exact ⟨h.2.2, by omega⟩

end Sys2Proof.Machine
end

