-- ==== Sys2Proof/Laws/State.lean ====
section
/-!
SUPPORT. What each update of the state does to each field: one equation per field per update, all true by unfolding.
The accessors `reg` and `cell` get theirs too, except where the update is the one that changes them
(Laws/Operands.lean).
-/

namespace Sys2Proof.Machine

variable (s : State)

/-! ### `setReg` -/

@[simp] theorem State.setReg_regs (r : Fin 8) (v : Word) : (s.setReg r v).regs = s.regs.set r v := rfl
@[simp] theorem State.setReg_pc (r : Fin 8) (v : Word) : (s.setReg r v).pc = s.pc := rfl
@[simp] theorem State.setReg_stack (r : Fin 8) (v : Word) : (s.setReg r v).stack = s.stack := rfl
@[simp] theorem State.setReg_mem (r : Fin 8) (v : Word) : (s.setReg r v).mem = s.mem := rfl
@[simp] theorem State.setReg_status (r : Fin 8) (v : Word) : (s.setReg r v).status = s.status := rfl
@[simp] theorem State.setReg_out (r : Fin 8) (v : Word) : (s.setReg r v).out = s.out := rfl
@[simp] theorem State.setReg_input (r : Fin 8) (v : Word) : (s.setReg r v).input = s.input := rfl
@[simp] theorem State.setReg_cell (r : Fin 8) (v : Word) (x : Word) : (s.setReg r v).cell x = s.cell x := rfl

/-! ### `store` -/

@[simp] theorem State.store_regs (a v : Word) : (s.store a v).regs = s.regs := rfl
@[simp] theorem State.store_pc (a v : Word) : (s.store a v).pc = s.pc := rfl
@[simp] theorem State.store_stack (a v : Word) : (s.store a v).stack = s.stack := rfl
@[simp] theorem State.store_mem (a v : Word) : (s.store a v).mem = Memory.writeCell s.mem a.toNat (Word.toCell v) := rfl
@[simp] theorem State.store_status (a v : Word) : (s.store a v).status = s.status := rfl
@[simp] theorem State.store_out (a v : Word) : (s.store a v).out = s.out := rfl
@[simp] theorem State.store_input (a v : Word) : (s.store a v).input = s.input := rfl
@[simp] theorem State.store_reg (a v : Word) (i : Fin 8) : (s.store a v).reg i = s.reg i := rfl

/-! ### `advance` -/

@[simp] theorem State.advance_regs (n : Nat) : (s.advance n).regs = s.regs := rfl
@[simp] theorem State.advance_pc (n : Nat) : (s.advance n).pc = s.pc + BitVec.ofNat 16 n := rfl
@[simp] theorem State.advance_stack (n : Nat) : (s.advance n).stack = s.stack := rfl
@[simp] theorem State.advance_mem (n : Nat) : (s.advance n).mem = s.mem := rfl
@[simp] theorem State.advance_status (n : Nat) : (s.advance n).status = s.status := rfl
@[simp] theorem State.advance_out (n : Nat) : (s.advance n).out = s.out := rfl
@[simp] theorem State.advance_input (n : Nat) : (s.advance n).input = s.input := rfl
@[simp] theorem State.advance_reg (n : Nat) (i : Fin 8) : (s.advance n).reg i = s.reg i := rfl
@[simp] theorem State.advance_cell (n : Nat) (x : Word) : (s.advance n).cell x = s.cell x := rfl

/-! ### `jumpTo` -/

@[simp] theorem State.jumpTo_regs (t : Word) : (s.jumpTo t).regs = s.regs := rfl
@[simp] theorem State.jumpTo_pc (t : Word) : (s.jumpTo t).pc = Word.toCell t := rfl
@[simp] theorem State.jumpTo_stack (t : Word) : (s.jumpTo t).stack = s.stack := rfl
@[simp] theorem State.jumpTo_mem (t : Word) : (s.jumpTo t).mem = s.mem := rfl
@[simp] theorem State.jumpTo_status (t : Word) : (s.jumpTo t).status = s.status := rfl
@[simp] theorem State.jumpTo_out (t : Word) : (s.jumpTo t).out = s.out := rfl
@[simp] theorem State.jumpTo_input (t : Word) : (s.jumpTo t).input = s.input := rfl
@[simp] theorem State.jumpTo_reg (t : Word) (i : Fin 8) : (s.jumpTo t).reg i = s.reg i := rfl
@[simp] theorem State.jumpTo_cell (t : Word) (x : Word) : (s.jumpTo t).cell x = s.cell x := rfl

/-! ### `push` -/

@[simp] theorem State.push_regs (v : Word) : (s.push v).regs = s.regs := rfl
@[simp] theorem State.push_pc (v : Word) : (s.push v).pc = s.pc := rfl
@[simp] theorem State.push_stack (v : Word) : (s.push v).stack = v :: s.stack := rfl
@[simp] theorem State.push_mem (v : Word) : (s.push v).mem = s.mem := rfl
@[simp] theorem State.push_status (v : Word) : (s.push v).status = s.status := rfl
@[simp] theorem State.push_out (v : Word) : (s.push v).out = s.out := rfl
@[simp] theorem State.push_input (v : Word) : (s.push v).input = s.input := rfl
@[simp] theorem State.push_reg (v : Word) (i : Fin 8) : (s.push v).reg i = s.reg i := rfl
@[simp] theorem State.push_cell (v : Word) (x : Word) : (s.push v).cell x = s.cell x := rfl

/-! ### `setStack` -/

@[simp] theorem State.setStack_regs (l : List Word) : (s.setStack l).regs = s.regs := rfl
@[simp] theorem State.setStack_pc (l : List Word) : (s.setStack l).pc = s.pc := rfl
@[simp] theorem State.setStack_stack (l : List Word) : (s.setStack l).stack = l := rfl
@[simp] theorem State.setStack_mem (l : List Word) : (s.setStack l).mem = s.mem := rfl
@[simp] theorem State.setStack_status (l : List Word) : (s.setStack l).status = s.status := rfl
@[simp] theorem State.setStack_out (l : List Word) : (s.setStack l).out = s.out := rfl
@[simp] theorem State.setStack_input (l : List Word) : (s.setStack l).input = s.input := rfl
@[simp] theorem State.setStack_reg (l : List Word) (i : Fin 8) : (s.setStack l).reg i = s.reg i := rfl
@[simp] theorem State.setStack_cell (l : List Word) (x : Word) : (s.setStack l).cell x = s.cell x := rfl

/-! ### `emit` -/

@[simp] theorem State.emit_regs (v : Word) : (s.emit v).regs = s.regs := rfl
@[simp] theorem State.emit_pc (v : Word) : (s.emit v).pc = s.pc := rfl
@[simp] theorem State.emit_stack (v : Word) : (s.emit v).stack = s.stack := rfl
@[simp] theorem State.emit_mem (v : Word) : (s.emit v).mem = s.mem := rfl
@[simp] theorem State.emit_status (v : Word) : (s.emit v).status = s.status := rfl
@[simp] theorem State.emit_out (v : Word) : (s.emit v).out = s.out ++ [v] := rfl
@[simp] theorem State.emit_input (v : Word) : (s.emit v).input = s.input := rfl
@[simp] theorem State.emit_reg (v : Word) (i : Fin 8) : (s.emit v).reg i = s.reg i := rfl
@[simp] theorem State.emit_cell (v : Word) (x : Word) : (s.emit v).cell x = s.cell x := rfl

/-! ### `setInput` -/

@[simp] theorem State.setInput_regs (l : List Byte) : (s.setInput l).regs = s.regs := rfl
@[simp] theorem State.setInput_pc (l : List Byte) : (s.setInput l).pc = s.pc := rfl
@[simp] theorem State.setInput_stack (l : List Byte) : (s.setInput l).stack = s.stack := rfl
@[simp] theorem State.setInput_mem (l : List Byte) : (s.setInput l).mem = s.mem := rfl
@[simp] theorem State.setInput_status (l : List Byte) : (s.setInput l).status = s.status := rfl
@[simp] theorem State.setInput_out (l : List Byte) : (s.setInput l).out = s.out := rfl
@[simp] theorem State.setInput_input (l : List Byte) : (s.setInput l).input = l := rfl
@[simp] theorem State.setInput_reg (l : List Byte) (i : Fin 8) : (s.setInput l).reg i = s.reg i := rfl
@[simp] theorem State.setInput_cell (l : List Byte) (x : Word) : (s.setInput l).cell x = s.cell x := rfl

/-! ### `raise` -/

@[simp] theorem State.raise_regs (k : FaultKind) (op : Option Cell) : (s.raise k op).regs = s.regs := rfl
@[simp] theorem State.raise_pc (k : FaultKind) (op : Option Cell) : (s.raise k op).pc = s.pc := rfl
@[simp] theorem State.raise_stack (k : FaultKind) (op : Option Cell) : (s.raise k op).stack = s.stack := rfl
@[simp] theorem State.raise_mem (k : FaultKind) (op : Option Cell) : (s.raise k op).mem = s.mem := rfl
@[simp] theorem State.raise_status (k : FaultKind) (op : Option Cell) : (s.raise k op).status = .fault k s.pc op := rfl
@[simp] theorem State.raise_out (k : FaultKind) (op : Option Cell) : (s.raise k op).out = s.out := rfl
@[simp] theorem State.raise_input (k : FaultKind) (op : Option Cell) : (s.raise k op).input = s.input := rfl
@[simp] theorem State.raise_reg (k : FaultKind) (op : Option Cell) (i : Fin 8) : (s.raise k op).reg i = s.reg i := rfl
@[simp] theorem State.raise_cell (k : FaultKind) (op : Option Cell) (x : Word) : (s.raise k op).cell x = s.cell x := rfl

/-! ### `halt` -/

@[simp] theorem State.halt_regs : (s.halt).regs = s.regs := rfl
@[simp] theorem State.halt_pc : (s.halt).pc = s.pc := rfl
@[simp] theorem State.halt_stack : (s.halt).stack = s.stack := rfl
@[simp] theorem State.halt_mem : (s.halt).mem = s.mem := rfl
@[simp] theorem State.halt_status : (s.halt).status = .halted := rfl
@[simp] theorem State.halt_out : (s.halt).out = s.out := rfl
@[simp] theorem State.halt_input : (s.halt).input = s.input := rfl
@[simp] theorem State.halt_reg (i : Fin 8) : (s.halt).reg i = s.reg i := rfl
@[simp] theorem State.halt_cell (x : Word) : (s.halt).cell x = s.cell x := rfl

/-! ### `supply` -/

@[simp] theorem State.supply_regs (b : Byte) : (s.supply b).regs = s.regs := rfl
@[simp] theorem State.supply_pc (b : Byte) : (s.supply b).pc = s.pc := rfl
@[simp] theorem State.supply_stack (b : Byte) : (s.supply b).stack = s.stack := rfl
@[simp] theorem State.supply_mem (b : Byte) : (s.supply b).mem = s.mem := rfl
@[simp] theorem State.supply_status (b : Byte) : (s.supply b).status = s.status := rfl
@[simp] theorem State.supply_out (b : Byte) : (s.supply b).out = s.out := rfl
@[simp] theorem State.supply_input (b : Byte) : (s.supply b).input = s.input ++ [b] := rfl
@[simp] theorem State.supply_reg (b : Byte) (i : Fin 8) : (s.supply b).reg i = s.reg i := rfl
@[simp] theorem State.supply_cell (b : Byte) (x : Word) : (s.supply b).cell x = s.cell x := rfl

/-! ### `wr`: the fields no destination reaches -/

@[simp] theorem State.wr_pc (d : Operand) (v : Word) : (s.wr d v).pc = s.pc := by
  cases d <;> rfl
@[simp] theorem State.wr_stack (d : Operand) (v : Word) : (s.wr d v).stack = s.stack := by
  cases d <;> rfl
@[simp] theorem State.wr_status (d : Operand) (v : Word) : (s.wr d v).status = s.status := by
  cases d <;> rfl
@[simp] theorem State.wr_out (d : Operand) (v : Word) : (s.wr d v).out = s.out := by
  cases d <;> rfl
@[simp] theorem State.wr_input (d : Operand) (v : Word) : (s.wr d v).input = s.input := by
  cases d <;> rfl

/-! ### `val`: a source reads registers only -/

@[simp] theorem State.val_lit (v : Word) : s.val (.lit v) = v := rfl
@[simp] theorem State.val_reg (r : Fin 8) : s.val (.reg r) = s.reg r := rfl

/-- Read resolution depends on the registers only (R57). -/
theorem State.val_of_same_reg {s t : State} (h : ∀ r, t.reg r = s.reg r) (o : Operand) : t.val o = s.val o := by
  cases o with
  | lit v => rfl
  | reg r => exact h r

/-! ### A reset with an image -/

@[simp] theorem State.load_regs (image input : List Byte) : (State.load image input).regs = Vector.replicate 8 0 := rfl
@[simp] theorem State.load_pc (image input : List Byte) : (State.load image input).pc = 0 := rfl
@[simp] theorem State.load_stack (image input : List Byte) : (State.load image input).stack = [] := rfl
@[simp] theorem State.load_mem (image input : List Byte) : (State.load image input).mem = Memory.ofImage image := rfl
@[simp] theorem State.load_status (image input : List Byte) : (State.load image input).status = .running := rfl
@[simp] theorem State.load_out (image input : List Byte) : (State.load image input).out = [] := rfl
@[simp] theorem State.load_input (image input : List Byte) : (State.load image input).input = input := rfl

/-- The reset state is the load of the empty image with no input supplied (R107). -/
theorem State.reset_eq_load : State.reset = State.load [] [] := rfl

end Sys2Proof.Machine
end

