-- ==== Sys2Proof/Laws/Operands.lean ====
section
/-!
SUPPORT. What the two operand resolutions can do, said once (spec/40_step_and_operands.md R57, R58), and the fetch.
-/

namespace Sys2Proof.Machine

/-! ### Registers and cells after an update -/

/-- A register read after a register write. -/
theorem State.reg_setReg (s : State) (r i : Fin 8) (v : Word) :
    (s.setReg r v).reg i = if i = r then v else s.reg i := by
  by_cases h : i = r
  · subst h
    simp [State.reg, State.setReg]
  · have h' : (r : Nat) ≠ (i : Nat) := fun e => h (Fin.ext e.symm)
    simp [State.reg, State.setReg, h, h']

/-- A cell read after a data store: the stored word, zero extended, at its address, and the old cell at every other
(R29, R33). -/
theorem State.cell_store (s : State) (a v x : Word) :
    (s.store a v).cell x = if x = a then Word.toCell v else s.cell x := by
  simp only [State.cell, State.store_mem, Memory.readCell_writeCell, BitVec.toNat_inj]

/-! ### Write resolution -/

/-- A register after write resolution: it changes only where the destination is its register code (R58). -/
theorem State.wr_reg (s : State) (d : Operand) (v : Word) (i : Fin 8) :
    (s.wr d v).reg i = if d = .reg i then v else s.reg i := by
  cases d with
  | lit a => simp [State.wr]
  | reg r => simp [State.wr, State.reg_setReg, eq_comm]

/-- A cell after write resolution: it changes only where the destination is the literal of its address (R58). -/
theorem State.wr_cell (s : State) (d : Operand) (v x : Word) :
    (s.wr d v).cell x = if d = .lit x then Word.toCell v else s.cell x := by
  cases d with
  | lit a => simp [State.wr, State.cell_store, eq_comm]
  | reg r => simp [State.wr]

/-- Write resolution keeps the canonical form: a destination address is always in range (R31, R58). -/
theorem State.wf_wr {s : State} (d : Operand) (v : Word) (h : Memory.wf s.mem) : Memory.wf (s.wr d v).mem := by
  cases d with
  | lit a => exact Memory.wf_writeCell _ h a.isLt
  | reg r => exact h

/-- A data store keeps the canonical form. -/
theorem State.wf_store {s : State} (a v : Word) (h : Memory.wf s.mem) : Memory.wf (s.store a v).mem :=
  Memory.wf_writeCell _ h a.isLt

/-! ### Words and cells -/

@[simp] theorem low15_toCell (v : Word) : Cell.low15 (Word.toCell v) = v := by
  simp [Cell.low15, Word.toCell]

@[simp] theorem toCell_toNat (v : Word) : (Word.toCell v).toNat = v.toNat := by
  simp only [Word.toCell, BitVec.toNat_setWidth]
  exact Nat.mod_eq_of_lt (by omega)

@[simp] theorem toWord_toNat (b : Byte) : (Byte.toWord b).toNat = b.toNat := by
  simp only [Byte.toWord, BitVec.toNat_setWidth]
  exact Nat.mod_eq_of_lt (by omega)

theorem low15_toNat {c : Cell} (h : c.toNat < 32768) : (Cell.low15 c).toNat = c.toNat := by
  simp only [Cell.low15, BitVec.toNat_setWidth]
  exact Nat.mod_eq_of_lt h

/-! ### Fetch -/

theorem State.length_fetchCells (s : State) :
    s.fetchCells.length = min Config.maxWidth (Config.memCells - s.pc.toNat) := by
  simp [State.fetchCells]

/-- The `k`-th fetched cell is the cell at `pc + k`, and there is none beyond the last address (R31, R55). -/
theorem State.getElem?_fetchCells (s : State) (k : Nat) :
    s.fetchCells[k]? = if k < min Config.maxWidth (Config.memCells - s.pc.toNat) then
      some (Memory.readCell s.mem (s.pc.toNat + k)) else none := by
  split <;> rename_i h
  · simp [State.fetchCells, List.getElem?_range h]
  · exact List.getElem?_eq_none (by rw [State.length_fetchCells]; omega)

/-- Beyond the last cell nothing is fetched (R53). -/
theorem State.fetchCells_eq_nil {s : State} (h : Config.memCells ≤ s.pc.toNat) : s.fetchCells = [] := by
  simp [State.fetchCells, Nat.sub_eq_zero_of_le h]

/-- Inside memory the first fetched cell is the cell at `pc` (R53). -/
theorem State.fetchCells_eq_cons {s : State} (h : s.pc.toNat < Config.memCells) :
    s.fetchCells = Memory.readCell s.mem s.pc.toNat :: s.fetchCells.tail := by
  have hlen := s.length_fetchCells
  have hget := s.getElem?_fetchCells 0
  have hpos : 0 < min Config.maxWidth (Config.memCells - s.pc.toNat) := by
    simp only [Config.maxWidth]
    omega
  rw [if_pos hpos] at hget
  cases hc : s.fetchCells with
  | nil => simp [hc] at hget
  | cons c rest => simpa [hc] using hget

/-! ### Conditions -/

/-- The test of a conditional jump, as a number (R78). -/
theorem nonZero_eq_true_iff (v : Word) : nonZero v = true ↔ v.toNat ≠ 0 := by
  simp [nonZero, ← BitVec.toNat_inj]

end Sys2Proof.Machine
end

