-- ==== Sys2Proof/Laws/Decode.lean ====
section
/-!
SUPPORT. The parts of the decoder and the encoder: the opcode map, one operand, and the byte layout of cells.
-/

namespace Sys2Proof

theorem Instr.opcode_le (i : Instr) : i.opcode ≤ 21 := by cases i <;> simp [Instr.opcode]

@[simp] theorem Instr.opcodeCell_toNat (i : Instr) : i.opcodeCell.toNat = i.opcode := by cases i <;> rfl

/-- The cells of an instruction are as many as its width (R41). -/
@[simp] theorem encode_length (i : Instr) : (encode i).length = i.width := by
  simp only [encode, Instr.width, List.length_cons, List.length_map]
  omega

/-- An instruction is one to four cells (R41). -/
theorem Instr.width_bounds (i : Instr) : 1 ≤ i.width ∧ i.width ≤ Config.maxWidth := by
  cases i <;> simp [Instr.width, Instr.operands, Config.maxWidth]

/-- There is a row for 0 to 21 and for nothing else (R8, R54). -/
theorem formatOf_eq_none_iff (n : Nat) : formatOf n = none ↔ 21 < n := by
  unfold formatOf
  split <;> simp_all
  grind

/-! What a row of the opcode map says of the instruction it builds: its opcode is the row's number, and its operands are
those it was given, in order. -/

theorem formatOf_f0 {n : Nat} {i : Instr} (h : formatOf n = some (.f0 i)) : i.opcode = n ∧ i.operands = [] := by
  unfold formatOf at h
  split at h <;> cases h <;> exact ⟨rfl, rfl⟩

theorem formatOf_f1 {n : Nat} {mk : Operand → Instr} (h : formatOf n = some (.f1 mk)) (a : Operand) :
    (mk a).opcode = n ∧ (mk a).operands = [a] := by
  unfold formatOf at h
  split at h <;> cases h <;> exact ⟨rfl, rfl⟩

theorem formatOf_f2 {n : Nat} {mk : Operand → Operand → Instr} (h : formatOf n = some (.f2 mk)) (a b : Operand) :
    (mk a b).opcode = n ∧ (mk a b).operands = [a, b] := by
  unfold formatOf at h
  split at h <;> cases h <;> exact ⟨rfl, rfl⟩

theorem formatOf_f3 {n : Nat} {mk : Operand → Operand → Operand → Instr} (h : formatOf n = some (.f3 mk))
    (a b c : Operand) : (mk a b c).opcode = n ∧ (mk a b c).operands = [a, b, c] := by
  unfold formatOf at h
  split at h <;> cases h <;> exact ⟨rfl, rfl⟩

/-- The opcode cell of an instruction with opcode `op.toNat` is `op`. -/
theorem Instr.opcodeCell_eq {i : Instr} {op : Cell} (h : i.opcode = op.toNat) : i.opcodeCell = op :=
  BitVec.eq_of_toNat_eq (by simpa using h)

/-- An operand cell is never lost: decoding the cell of an operand gives the operand (R44). -/
@[simp] theorem Operand.ofCell_toCell (o : Operand) : Operand.ofCell o.toCell = some o := by
  cases o with
  | lit v =>
    have h : v.toNat < Config.regBase := v.isLt
    simp [Operand.ofCell, Operand.toCell, h]
  | reg r =>
    have h : (BitVec.ofNat 16 (Config.regBase + r.val)).toNat = Config.regBase + r.val := by
      rw [BitVec.toNat_ofNat]
      exact Nat.mod_eq_of_lt (by simp only [Config.regBase]; omega)
    simp [Operand.ofCell, Operand.toCell, h]

/-- A valid operand cell is the cell of the operand it decodes to (R44). -/
theorem Operand.toCell_of_ofCell {w : Cell} {o : Operand} (h : Operand.ofCell w = some o) : o.toCell = w := by
  unfold Operand.ofCell at h
  split at h
  · cases h
    apply BitVec.eq_of_toNat_eq
    simp only [Operand.toCell, Machine.toCell_toNat]
    exact Machine.low15_toNat ‹_›
  · split at h
    · cases h
      apply BitVec.eq_of_toNat_eq
      have := w.isLt
      simp only [Operand.toCell, BitVec.toNat_ofNat]
      simp only [Config.regBase] at *
      omega
    · cases h

/-- Exactly the cells 32776 to 65535 name no operand (R44). -/
theorem Operand.ofCell_eq_none_iff (w : Cell) : Operand.ofCell w = none ↔ 32776 ≤ w.toNat := by
  unfold Operand.ofCell Config.regBase
  split
  · simp; omega
  · split <;> simp <;> omega

/-- The bytes of cells read back as the cells (R50). -/
@[simp] theorem cellsOfBytes_bytesOfCells (cells : List Cell) : cellsOfBytes (bytesOfCells cells) = cells := by
  induction cells with
  | nil => rfl
  | cons c rest ih => simp [bytesOfCells, cellsOfBytes, ih]

end Sys2Proof
end

