-- ==== Sys2Proof/Laws/Exec.lean ====
section
/-!
SUPPORT. Inversion of the meanings that branch: if an instruction answers `next t`, then `t` is one of these states. The
other meanings have one case each, which their definitions say.
-/

namespace Sys2Proof.Machine

variable {s t : State}

/-- `set`: a register destination is written; a literal one raises (R63). -/
theorem execSet_cases {a b : Operand} (h : execSet a b s = .next t) :
    (∃ r, a = .reg r ∧ t = (s.wr a (s.val b)).advance 3) ∨
      ∃ v, a = .lit v ∧ t = s.raise .invalidRegister (some (Instr.set a b).opcodeCell) := by
  cases a with
  | lit v => cases h; exact .inr ⟨v, rfl, rfl⟩
  | reg r => cases h; exact .inl ⟨r, rfl, rfl⟩

/-- `pop`: the top is written; an empty stack raises (R65). -/
theorem execPop_cases {a : Operand} (h : execPop a s = .next t) :
    (∃ top rest, s.stack = top :: rest ∧ t = ((s.setStack rest).wr a top).advance 2) ∨
      (s.stack = [] ∧ t = s.raise .stackUnderflow (some (Instr.pop a).opcodeCell)) := by
  unfold execPop at h
  split at h <;> cases h
  · exact .inr ⟨‹_›, rfl⟩
  · exact .inl ⟨_, _, ‹_›, rfl⟩

/-- `mod`: the remainder is written; a zero divisor raises (R71). -/
theorem execMod_cases {a b c : Operand} (h : execMod a b c s = .next t) :
    (s.val c ≠ 0 ∧ t = (s.wr a (aluMod (s.val b) (s.val c))).advance 4) ∨
      (s.val c = 0 ∧ t = s.raise .divisionByZero (some (Instr.mod a b c).opcodeCell)) := by
  unfold execMod at h
  split at h <;> cases h
  · exact .inr ⟨‹_›, rfl⟩
  · exact .inl ⟨‹_›, rfl⟩

/-- `jt`: the jump is taken on a value that is not 0 (R78). -/
theorem execJt_cases {a b : Operand} (h : execJt a b s = .next t) :
    ((s.val a).toNat ≠ 0 ∧ t = s.jumpTo (s.val b)) ∨ ((s.val a).toNat = 0 ∧ t = s.advance 3) := by
  have hz := nonZero_eq_true_iff (s.val a)
  unfold execJt at h
  cases h
  split
  · exact .inl ⟨hz.mp ‹_›, rfl⟩
  · exact .inr ⟨by simp_all, rfl⟩

/-- `jf`: the jump is taken on 0 (R79). -/
theorem execJf_cases {a b : Operand} (h : execJf a b s = .next t) :
    ((s.val a).toNat = 0 ∧ t = s.jumpTo (s.val b)) ∨ ((s.val a).toNat ≠ 0 ∧ t = s.advance 3) := by
  have hz := nonZero_eq_true_iff (s.val a)
  unfold execJf at h
  cases h
  split
  · exact .inr ⟨hz.mp ‹_›, rfl⟩
  · exact .inl ⟨by simp_all, rfl⟩

/-- `call`: the return address is pushed and the jump taken; a return address beyond 32767 raises (R80). -/
theorem execCall_cases {a : Operand} (h : execCall a s = .next t) :
    (s.pc.toNat + 2 < 32768 ∧ t = (s.push (Cell.low15 (s.pc + 2))).jumpTo (s.val a)) ∨
      (32768 ≤ s.pc.toNat + 2 ∧ t = s.raise .addressOutOfRange (some (Instr.call a).opcodeCell)) := by
  unfold execCall at h
  split at h <;> cases h
  · exact .inl ⟨‹_›, rfl⟩
  · exact .inr ⟨Nat.le_of_not_lt ‹_›, rfl⟩

/-- `ret`: the top goes to `pc`; an empty stack raises (R81). -/
theorem execRet_cases (h : execRet s = .next t) :
    (∃ top rest, s.stack = top :: rest ∧ t = (s.setStack rest).jumpTo top) ∨
      (s.stack = [] ∧ t = s.raise .stackUnderflow (some Instr.ret.opcodeCell)) := by
  unfold execRet at h
  split at h <;> cases h
  · exact .inr ⟨‹_›, rfl⟩
  · exact .inl ⟨_, _, ‹_›, rfl⟩

/-- `rmem`: a cell that holds a word is copied to the destination; any other raises (R85). -/
theorem execRmem_cases {a b : Operand} (h : execRmem a b s = .next t) :
    ((s.cell (s.val b)).toNat < 32768 ∧ t = (s.wr a (Cell.low15 (s.cell (s.val b)))).advance 3) ∨
      (32768 ≤ (s.cell (s.val b)).toNat ∧ t = s.raise .invalidWord (some (Instr.rmem a b).opcodeCell)) := by
  unfold execRmem at h
  split at h <;> cases h
  · exact .inl ⟨‹_›, rfl⟩
  · exact .inr ⟨Nat.le_of_not_lt ‹_›, rfl⟩

/-- `in` either waits, or consumes the first byte and writes at most its destination (R88), whatever `IN_CR_SWALLOW`. -/
theorem inputByte_cases (swallow : Bool) (a : Operand) (s : State) :
    (s.input = [] ∧ inputByte swallow a s = s) ∨
      ∃ ch rest, s.input = ch :: rest ∧
        ((swallow = true ∧ ch = Config.cr ∧ inputByte swallow a s = (s.setInput rest).advance 2) ∨
          (¬(swallow = true ∧ ch = Config.cr) ∧
            inputByte swallow a s = ((s.setInput rest).wr a (Byte.toWord ch)).advance 2)) := by
  unfold inputByte
  split
  · exact .inl ⟨‹_›, rfl⟩
  · rename_i ch rest hin
    refine .inr ⟨ch, rest, hin, ?_⟩
    by_cases h : swallow = true ∧ ch = Config.cr
    · exact .inl ⟨h.1, h.2, by simp [h.1, h.2]⟩
    · refine .inr ⟨h, ?_⟩
      have hb : (swallow && ch == Config.cr) = false := by
        cases swallow <;> simp_all
      simp [hb]

/-- `in` on this hardware (R9, R88). -/
theorem execInp_cases {a : Operand} (h : execInp a s = .next t) :
    (s.input = [] ∧ t = s) ∨
      ∃ ch rest, s.input = ch :: rest ∧
        ((ch = Config.cr ∧ t = (s.setInput rest).advance 2) ∨
          (ch ≠ Config.cr ∧ t = ((s.setInput rest).wr a (Byte.toWord ch)).advance 2)) := by
  unfold execInp at h
  cases h
  have hs : Config.inCrSwallow = true := rfl
  rcases inputByte_cases Config.inCrSwallow a s with h | ⟨ch, rest, hin, h | h⟩
  · exact .inl h
  · exact .inr ⟨ch, rest, hin, .inl h.2⟩
  · exact .inr ⟨ch, rest, hin, .inr ⟨fun hc => h.1 ⟨hs, hc⟩, h.2⟩⟩

/-- Memory under write resolution: untouched, or one cell holds the word (R58). -/
theorem State.wr_mem_cases (s : State) (d : Operand) (v : Word) :
    (s.wr d v).mem = s.mem ∨ ∃ x : Word, (s.wr d v).mem = Memory.writeCell s.mem x.toNat (Word.toCell v) := by
  cases d with
  | lit x => exact .inr ⟨x, rfl⟩
  | reg r => exact .inl rfl

/-- What any instruction does to memory: nothing, or it stores one word in one cell (R29, R33). -/
theorem exec_mem_cases {i : Instr} (h : exec i s = .next t) :
    t.mem = s.mem ∨ ∃ x v : Word, t.mem = Memory.writeCell s.mem x.toNat (Word.toCell v) := by
  have wrote : ∀ (u : State) (d : Operand) (v : Word), u.mem = s.mem → t.mem = (u.wr d v).mem →
      t.mem = s.mem ∨ ∃ x v : Word, t.mem = Memory.writeCell s.mem x.toNat (Word.toCell v) := by
    intro u d v hu ht
    rcases u.wr_mem_cases d v with e | ⟨x, e⟩
    · exact .inl (ht.trans (e.trans hu))
    · exact .inr ⟨x, v, ht.trans (hu ▸ e)⟩
  cases i with
  | set a b =>
    rcases execSet_cases h with ⟨_, _, rfl⟩ | ⟨_, _, rfl⟩
    · exact wrote s a _ rfl rfl
    · exact .inl rfl
  | pop a =>
    rcases execPop_cases h with ⟨_, rest, _, rfl⟩ | ⟨_, rfl⟩
    · exact wrote (s.setStack rest) a _ rfl rfl
    · exact .inl rfl
  | mod a b c =>
    rcases execMod_cases h with ⟨_, rfl⟩ | ⟨_, rfl⟩
    · exact wrote s a _ rfl rfl
    · exact .inl rfl
  | rmem a b =>
    rcases execRmem_cases h with ⟨_, rfl⟩ | ⟨_, rfl⟩
    · exact wrote s a _ rfl rfl
    · exact .inl rfl
  | inp a =>
    rcases execInp_cases h with ⟨_, rfl⟩ | ⟨_, rest, _, ⟨_, rfl⟩ | ⟨_, rfl⟩⟩
    · exact .inl rfl
    · exact .inl rfl
    · exact wrote (s.setInput rest) a _ rfl rfl
  | jt a b => rcases execJt_cases h with ⟨_, rfl⟩ | ⟨_, rfl⟩ <;> exact .inl rfl
  | jf a b => rcases execJf_cases h with ⟨_, rfl⟩ | ⟨_, rfl⟩ <;> exact .inl rfl
  | call a => rcases execCall_cases h with ⟨_, rfl⟩ | ⟨_, rfl⟩ <;> exact .inl rfl
  | ret => rcases execRet_cases h with ⟨_, _, _, rfl⟩ | ⟨_, rfl⟩ <;> exact .inl rfl
  | wmem a b => cases h; exact .inr ⟨_, _, rfl⟩
  | eq a b c => cases h; exact wrote s a _ rfl rfl
  | gt a b c => cases h; exact wrote s a _ rfl rfl
  | add a b c => cases h; exact wrote s a _ rfl rfl
  | mult a b c => cases h; exact wrote s a _ rfl rfl
  | and a b c => cases h; exact wrote s a _ rfl rfl
  | or a b c => cases h; exact wrote s a _ rfl rfl
  | not a b => cases h; exact wrote s a _ rfl rfl
  | halt | push a | jmp a | out a | noop => cases h; exact .inl rfl

/-- What any instruction does to `pc`: it leaves it, sets it to a word, or advances it by its width (R59, R83). -/
theorem exec_pc_cases {i : Instr} (h : exec i s = .next t) :
    t.pc = s.pc ∨ (∃ v : Word, t.pc = Word.toCell v) ∨ t.pc = s.pc + BitVec.ofNat 16 i.width := by
  cases i with
  | set a b => rcases execSet_cases h with ⟨_, _, rfl⟩ | ⟨_, _, rfl⟩ <;> simp [Instr.width, Instr.operands]
  | pop a => rcases execPop_cases h with ⟨_, _, _, rfl⟩ | ⟨_, rfl⟩ <;> simp [Instr.width, Instr.operands]
  | mod a b c => rcases execMod_cases h with ⟨_, rfl⟩ | ⟨_, rfl⟩ <;> simp [Instr.width, Instr.operands]
  | rmem a b => rcases execRmem_cases h with ⟨_, rfl⟩ | ⟨_, rfl⟩ <;> simp [Instr.width, Instr.operands]
  | inp a =>
    rcases execInp_cases h with ⟨_, rfl⟩ | ⟨_, _, _, ⟨_, rfl⟩ | ⟨_, rfl⟩⟩ <;> simp [Instr.width, Instr.operands]
  | jt a b =>
    rcases execJt_cases h with ⟨_, rfl⟩ | ⟨_, rfl⟩
    · exact .inr (.inl ⟨_, rfl⟩)
    · exact .inr (.inr rfl)
  | jf a b =>
    rcases execJf_cases h with ⟨_, rfl⟩ | ⟨_, rfl⟩
    · exact .inr (.inl ⟨_, rfl⟩)
    · exact .inr (.inr rfl)
  | call a =>
    rcases execCall_cases h with ⟨_, rfl⟩ | ⟨_, rfl⟩
    · exact .inr (.inl ⟨_, rfl⟩)
    · exact .inl rfl
  | ret =>
    rcases execRet_cases h with ⟨top, _, _, rfl⟩ | ⟨_, rfl⟩
    · exact .inr (.inl ⟨top, rfl⟩)
    · exact .inl rfl
  | jmp a => cases h; exact .inr (.inl ⟨_, rfl⟩)
  | halt => cases h; exact .inl rfl
  | eq a b c | gt a b c | add a b c | mult a b c | and a b c | or a b c =>
    cases h; simp [alu3, Instr.width, Instr.operands]
  | not a b | wmem a b | push a | out a | noop => cases h; simp [Instr.width, Instr.operands]

end Sys2Proof.Machine
end

