-- ==== Sys2Proof/Laws/PerInstr.lean ====
section
/-!
SUPPORT. One family of facts about every instruction as syntax: the opcode map has a row for its opcode, and that row
rebuilds the instruction from its operands (spec/30_encoding.md R51).
-/

namespace Sys2Proof.Laws.OpcodeMap

/-- The instruction a row of the opcode map builds from a list of operands of the right length. -/
def rebuild : Format → List Operand → Option Instr
  | .f0 i, [] => some i
  | .f1 mk, [a] => some (mk a)
  | .f2 mk, [a, b] => some (mk a b)
  | .f3 mk, [a, b, c] => some (mk a b c)
  | _, _ => none

/-- The row of the instruction's opcode rebuilds it from its operands. -/
def Statement (i : Instr) : Prop := ∃ f, formatOf i.opcode = some f ∧ rebuild f i.operands = some i

theorem halt : Statement .halt := ⟨_, rfl, rfl⟩
theorem set (a b : Operand) : Statement (.set a b) := ⟨_, rfl, rfl⟩
theorem push (a : Operand) : Statement (.push a) := ⟨_, rfl, rfl⟩
theorem pop (a : Operand) : Statement (.pop a) := ⟨_, rfl, rfl⟩
theorem eq (a b c : Operand) : Statement (.eq a b c) := ⟨_, rfl, rfl⟩
theorem gt (a b c : Operand) : Statement (.gt a b c) := ⟨_, rfl, rfl⟩
theorem jmp (a : Operand) : Statement (.jmp a) := ⟨_, rfl, rfl⟩
theorem jt (a b : Operand) : Statement (.jt a b) := ⟨_, rfl, rfl⟩
theorem jf (a b : Operand) : Statement (.jf a b) := ⟨_, rfl, rfl⟩
theorem add (a b c : Operand) : Statement (.add a b c) := ⟨_, rfl, rfl⟩
theorem mult (a b c : Operand) : Statement (.mult a b c) := ⟨_, rfl, rfl⟩
theorem mod (a b c : Operand) : Statement (.mod a b c) := ⟨_, rfl, rfl⟩
theorem and (a b c : Operand) : Statement (.and a b c) := ⟨_, rfl, rfl⟩
theorem or (a b c : Operand) : Statement (.or a b c) := ⟨_, rfl, rfl⟩
theorem not (a b : Operand) : Statement (.not a b) := ⟨_, rfl, rfl⟩
theorem rmem (a b : Operand) : Statement (.rmem a b) := ⟨_, rfl, rfl⟩
theorem wmem (a b : Operand) : Statement (.wmem a b) := ⟨_, rfl, rfl⟩
theorem call (a : Operand) : Statement (.call a) := ⟨_, rfl, rfl⟩
theorem ret : Statement .ret := ⟨_, rfl, rfl⟩
theorem out (a : Operand) : Statement (.out a) := ⟨_, rfl, rfl⟩
theorem inp (a : Operand) : Statement (.inp a) := ⟨_, rfl, rfl⟩
theorem noop : Statement .noop := ⟨_, rfl, rfl⟩

end Sys2Proof.Laws.OpcodeMap
end

