-- ==== Sys2Proof/Laws/Step.lean ====
section
/-!
SUPPORT. What one step can do, said once: later proofs cite `step_cases` and the lemmas of the shared operations and do
not unfold `step`.
-/

namespace Sys2Proof.Machine

/-- Inversion of a step: the machine had ended and nothing changed; or an instruction was fetched and executed; or
phases 1 to 4 raised a fault (R52, R111). -/
theorem step_cases {s t : State} (h : step s = .next t) :
    (s.status ≠ .running ∧ t = s) ∨
      (s.status = .running ∧ ∃ i, s.fetch = .ok i ∧ exec i s = .next t) ∨
        (s.status = .running ∧ ∃ r, s.fetch = .error r ∧ t = s.raiseReject r) := by
  unfold step at h
  split at h
  · rename_i hr
    split at h
    · rename_i i hi
      exact .inr (.inl ⟨hr, i, hi, h⟩)
    · rename_i r he
      cases h
      exact .inr (.inr ⟨hr, r, he, rfl⟩)
  · rename_i hs
    cases h
    exact .inl ⟨by simp [hs], rfl⟩
  · rename_i hs
    cases h
    exact .inl ⟨by simp [hs], rfl⟩

/-- What a rejected fetch does: the fault of its phase, and nothing else. -/
theorem State.raiseReject_eq (s : State) (r : Reject) :
    ∃ kind opcode, s.raiseReject r = s.raise kind opcode := by
  cases r <;> exact ⟨_, _, rfl⟩

/-- One step and then the rest of the run, of any machine. -/
theorem coreRun_succ (M : Host.Core) (k : Nat) {s t : M.State} (h : M.step s = .next t) :
    M.run (k + 1) s = M.run k t := by
  rw [Host.Core.run, h]

/-- No step, no change. -/
theorem run_zero (s : State) : run 0 s = .next s := rfl

/-- One step and then the rest of the run (R112). -/
theorem run_succ {s t : State} (k : Nat) (h : step s = .next t) : run (k + 1) s = run k t :=
  coreRun_succ Sys2Proof.core k h

end Sys2Proof.Machine
end

