-- ==== Sys2Proof/Tests/Slice0.lean ====
section
/-!
SUPPORT. Tests of the model. Expected results are those of spec/95_test_vectors.md (the vector is named in each comment)
or written out by hand from the rule named. After them, a witness for the hypotheses of every statement that has some.
-/

namespace Sys2Proof.Tests

open Sys2Proof.Machine Sys2Proof.Claims

/-- The reset state with `pc` at an address and the given cells stored from there on. -/
def at' (pc : Nat) (cells : List Cell) : State :=
  { State.reset with pc := BitVec.ofNat 16 pc, mem := Memory.placeCells [] pc cells }

/-- The next state of an outcome, if it is one. -/
def nextOf : Host.Outcome State Fault Refusal → Option State
  | .next s => some s
  | .fault _ => none
  | .refused _ => none

/-- A view of the state after one step. -/
def seen {α : Type} (s : State) (view : State → α) : Option α := (nextOf (step s)).map view

/-! ### Well-formedness: the one check, with the term it refuses -/

theorem test_wf_refuses_set_with_a_literal_destination : (Instr.set (.lit 100) (.lit 5)).wf = false := by decide
theorem test_wf_accepts_set_with_a_register : (Instr.set (.reg 7) (.lit 5)).wf = true := by decide

/-! ### Decoding: cells written out from the opcode map of R51 and the operand classes of R44 -/

theorem test_decode_halt : (decode [0b0000000000000000]).toOption = some .halt := by decide
theorem test_decode_set : (decode [0b0000000000000001, 0b1000000000000000, 0b0000010011010010]).toOption =
    some (.set (.reg 0) (.lit 1234)) := by decide
theorem test_decode_push : (decode [0b0000000000000010, 0b1000000000000001]).toOption = some (.push (.reg 1)) := by decide
theorem test_decode_pop : (decode [0b0000000000000011, 0b0000000111110100]).toOption = some (.pop (.lit 500)) := by decide
theorem test_decode_eq : (decode [0b0000000000000100, 0b1000000000000000, 0b1000000000000001, 0b0000000000001001]).toOption =
    some (.eq (.reg 0) (.reg 1) (.lit 9)) := by decide
theorem test_decode_gt : (decode [0b0000000000000101, 0b1000000000000000, 0b0000000000000101, 0b0000000000000011]).toOption =
    some (.gt (.reg 0) (.lit 5) (.lit 3)) := by decide
theorem test_decode_jmp : (decode [0b0000000000000110, 0b0000000001100100]).toOption = some (.jmp (.lit 100)) := by decide
theorem test_decode_jt : (decode [0b0000000000000111, 0b1000000000000000, 0b0000000011001000]).toOption =
    some (.jt (.reg 0) (.lit 200)) := by decide
theorem test_decode_jf : (decode [0b0000000000001000, 0b0111111111111111, 0b1000000000000111]).toOption =
    some (.jf (.lit 32767) (.reg 7)) := by decide
theorem test_decode_add : (decode [0b0000000000001001, 0b1000000000000000, 0b1000000000000001, 0b0000000000000100]).toOption =
    some (.add (.reg 0) (.reg 1) (.lit 4)) := by decide
theorem test_decode_mult : (decode [0b0000000000001010, 0b1000000000000010, 0b1000000000000011, 0b1000000000000100]).toOption =
    some (.mult (.reg 2) (.reg 3) (.reg 4)) := by decide
theorem test_decode_mod : (decode [0b0000000000001011, 0b0000000000000001, 0b0000000000000010, 0b0000000000000011]).toOption =
    some (.mod (.lit 1) (.lit 2) (.lit 3)) := by decide
theorem test_decode_and : (decode [0b0000000000001100, 0b1000000000000000, 0b0000000000001100, 0b0000000000001010]).toOption =
    some (.and (.reg 0) (.lit 12) (.lit 10)) := by decide
theorem test_decode_or : (decode [0b0000000000001101, 0b1000000000000101, 0b0000000000001100, 0b1000000000000110]).toOption =
    some (.or (.reg 5) (.lit 12) (.reg 6)) := by decide
theorem test_decode_not : (decode [0b0000000000001110, 0b0000000110010000, 0b0000000000000000]).toOption =
    some (.not (.lit 400) (.lit 0)) := by decide
theorem test_decode_rmem : (decode [0b0000000000001111, 0b1000000000000000, 0b0000000001100100]).toOption =
    some (.rmem (.reg 0) (.lit 100)) := by decide
theorem test_decode_wmem : (decode [0b0000000000010000, 0b1000000000000001, 0b1000000000000010]).toOption =
    some (.wmem (.reg 1) (.reg 2)) := by decide
theorem test_decode_call : (decode [0b0000000000010001, 0b0000000100101100]).toOption = some (.call (.lit 300)) := by decide
theorem test_decode_ret : (decode [0b0000000000010010]).toOption = some .ret := by decide
theorem test_decode_out : (decode [0b0000000000010011, 0b0000000001000001]).toOption = some (.out (.lit 65)) := by decide
theorem test_decode_in : (decode [0b0000000000010100, 0b1000000000000111]).toOption = some (.inp (.reg 7)) := by decide
theorem test_decode_noop : (decode [0b0000000000010101]).toOption = some .noop := by decide

/-- R50: "`add r0 r1 4` is the 8 bytes 09 00 00 80 01 80 04 00", read as one number with the first cell lowest. -/
theorem test_decodeTableWord_add : decodeTableWord 64 0x0004800180000009 = some (.add (.reg 0) (.reg 1) (.lit 4)) := by
  decide
/-- Bits above `nbits` are 0: operand cells of zeros. -/
theorem test_decodeTableWord_operands_of_zeros : decodeTableWord 16 0x0009 = some (.add (.lit 0) (.lit 0) (.lit 0)) := by
  decide
/-- R50: the bytes of `out 65` are 13 00 41 00. -/
theorem test_encode_out_bytes : bytesOfCells (encode (.out (.lit 65))) = [0x13, 0x00, 0x41, 0x00] := by decide
/-- The instruction placed by `withFetchWord` is the one the next step runs, the first after reset (R82). -/
theorem test_withFetchWord_noop : seen (State.reset.withFetchWord 16 21) (·.pc) = some 1 := by decide

/-! ### Fetch, decode and validation -/

/-- V2, the source's own example S9. -/
theorem test_unknown_opcode_255 : seen (at' 0 [255]) (·.status) = some (.fault .unknownInstruction 0 (some 255)) := by decide
/-- V6: the opcode fetch is out of range. -/
theorem test_fetch_beyond_memory : seen (at' 32768 []) (·.status) = some (.fault .addressOutOfRange 32768 none) := by decide
/-- V9: the third operand cell would be 32768. -/
theorem test_operand_beyond_memory :
    seen (at' 32765 [9, 32768, 1]) (·.status) = some (.fault .addressOutOfRange 32765 (some 9)) := by decide
/-- V13: the branch is not taken, `b` is unused and still checked. -/
theorem test_unused_operand_is_validated :
    seen (at' 0 [7, 0, 40000]) (·.status) = some (.fault .invalidRegister 0 (some 7)) := by decide
/-- V15: validation wins over the empty stack. -/
theorem test_validation_before_underflow :
    seen (at' 0 [3, 40000]) (·.status) = some (.fault .invalidRegister 0 (some 3)) := by decide
/-- R111: a step of a terminated machine changes nothing. -/
theorem test_terminal_is_final : nextOf (step ((at' 0 [21]).halt)) = some ((at' 0 [21]).halt) := by decide

/-! ### Instructions -/

/-- V18. -/
theorem test_set : seen (at' 0 [1, 32768, 1234]) (fun t => (t.reg 0, t.pc)) = some (1234, 3) := by decide
/-- V21: the literal destination faults; cell 100 stays 0. -/
theorem test_set_literal_destination : seen (at' 0 [1, 100, 5]) (fun t => (t.status, t.cell 100, t.pc)) =
    some (.fault .invalidRegister 0 (some 1), 0, 0) := by decide
/-- V24. -/
theorem test_push : seen (((at' 10 [2, 32769]).setReg 1 7).setStack [5]) (fun t => (t.stack, t.pc)) =
    some ([7, 5], 12) := by decide
/-- V27: a literal destination is a memory cell. -/
theorem test_pop_to_memory : seen ((at' 0 [3, 500]).setStack [7]) (fun t => (t.cell 500, t.stack, t.pc)) =
    some (7, [], 2) := by decide
/-- V29. -/
theorem test_pop_empty : seen (at' 0 [3, 32768]) (·.status) = some (.fault .stackUnderflow 0 (some 3)) := by decide
/-- V32: the sources are read before the destination is written. -/
theorem test_eq_same_register : seen ((at' 0 [4, 32768, 32768, 32768]).setReg 0 77) (·.reg 0) = some 1 := by decide
/-- V38: bit 14 is not a sign. -/
theorem test_gt_is_unsigned : seen (at' 0 [5, 32768, 16384, 16383]) (·.reg 0) = some 1 := by decide
/-- V36: equal is not greater. -/
theorem test_gt_is_strict : seen ((at' 0 [5, 32768, 4, 4]).setReg 0 9) (·.reg 0) = some 0 := by decide
/-- V42. -/
theorem test_add_wraps : seen ((at' 0 [9, 32768, 32768, 32768]).setReg 0 20000) (fun t => (t.reg 0, t.pc)) =
    some (7232, 4) := by decide
/-- V45: it overwrites its own operand cell after using it. -/
theorem test_add_over_its_own_operand : seen (at' 100 [9, 101, 5, 6]) (fun t => (t.cell 101, t.pc)) = some (11, 104) := by
  decide
/-- V47: a 30-bit product. -/
theorem test_mult_wraps : seen (at' 0 [10, 32768, 32767, 32767]) (·.reg 0) = some 1 := by decide
/-- V55. -/
theorem test_mod : seen (at' 0 [11, 32768, 32767, 32766]) (·.reg 0) = some 1 := by decide
/-- V60: the divisor register holds 0; r0 keeps 9. -/
theorem test_mod_by_zero : seen ((at' 0 [11, 32768, 17, 32769]).setReg 0 9) (fun t => (t.status, t.reg 0, t.pc)) =
    some (.fault .divisionByZero 0 (some 11), 9, 0) := by decide
/-- V62. -/
theorem test_and : seen (at' 0 [12, 32768, 12, 10]) (·.reg 0) = some 8 := by decide
/-- V65. -/
theorem test_or : seen (at' 0 [13, 32768, 12, 10]) (·.reg 0) = some 14 := by decide
/-- V73: bit 15 of the cell stays 0. -/
theorem test_not_to_memory : seen (at' 0 [14, 400, 0]) (fun t => (t.cell 400, t.pc)) = some (32767, 3) := by decide
/-- V74. -/
theorem test_halt : seen (at' 2 [0]) (fun t => (t.status, t.pc)) = some (.halted, 2) := by decide
/-- V77. -/
theorem test_jmp_register : seen ((at' 0 [6, 32768]).setReg 0 7) (·.pc) = some 7 := by decide
/-- V79. -/
theorem test_jt_taken : seen ((at' 10 [7, 32768, 200]).setReg 0 5) (·.pc) = some 200 := by decide
/-- V82: not taken at the top of memory. -/
theorem test_jt_not_taken_at_the_top : seen (at' 32765 [7, 0, 200]) (·.pc) = some 32768 := by decide
/-- V83. -/
theorem test_jf_taken : seen (at' 10 [8, 32768, 200]) (·.pc) = some 200 := by decide
/-- V84. -/
theorem test_jf_not_taken : seen ((at' 10 [8, 32768, 200]).setReg 0 5) (·.pc) = some 13 := by decide
/-- V87: 32767 is the largest return address that fits. -/
theorem test_call_largest_return_address : seen (at' 32765 [17, 5]) (fun t => (t.pc, t.stack)) = some (5, [32767]) := by
  decide
/-- V88. -/
theorem test_call_return_address_too_large : seen (at' 32766 [17, 5]) (fun t => (t.status, t.stack)) =
    some (.fault .addressOutOfRange 32766 (some 17), []) := by decide
/-- V89. -/
theorem test_ret : seen ((at' 305 [18]).setStack [22, 9]) (fun t => (t.pc, t.stack)) = some (22, [9]) := by decide
/-- V90, the source's example S6. -/
theorem test_ret_empty : seen (at' 5 [18]) (·.status) = some (.fault .stackUnderflow 5 (some 18)) := by decide
/-- V5: the last cell; `pc` leaves the range without wrapping. -/
theorem test_noop_at_the_last_cell : seen (at' 32767 [21]) (fun t => (t.pc, t.status)) = some (32768, .running) := by
  decide
/-- V94: memory to memory. -/
theorem test_rmem_to_memory : seen ((at' 0 [15, 200, 100]).store 100 4242) (·.cell 200) = some 4242 := by decide
/-- V95: it reads its own operand cell, which holds 32768. -/
theorem test_rmem_of_a_register_code : seen (at' 0 [15, 32768, 1]) (fun t => (t.status, t.reg 0)) =
    some (.fault .invalidWord 0 (some 15), 0) := by decide
/-- V100: it writes cell 200, not r1. -/
theorem test_wmem_through_a_register :
    seen (((at' 0 [16, 32769, 32770]).setReg 1 200).setReg 2 77) (fun t => (t.cell 200, t.reg 1)) = some (77, 200) := by
  decide
/-- V102: the next fetch sees the stored `noop`. -/
theorem test_wmem_into_the_next_instruction : seen (at' 0 [16, 3, 21]) (fun t => t.fetch.toOption) = some (some .noop) := by
  decide
/-- V106: the whole 15-bit word. -/
theorem test_out : seen (((at' 0 [19, 32768]).setReg 0 32767).emit 1) (fun t => (t.out, t.pc)) = some ([1, 32767], 2) := by
  decide
/-- V109: the byte 13 is consumed, r0 keeps 7, and the 10 is not read. -/
theorem test_in_swallows_13 : seen (((at' 0 [20, 32768]).setReg 0 7).setInput [13, 10]) (fun t => (t.reg 0, t.input, t.pc)) =
    some (7, [10], 2) := by decide
/-- V115: no byte, no change. -/
theorem test_in_waits : nextOf (step (at' 0 [20, 32768])) = some (at' 0 [20, 32768]) := by decide
/-- V110: the same byte with `IN_CR_SWALLOW = false`. -/
theorem test_in_without_swallow :
    (inputByte false (.reg 0) ((at' 0 [20, 32768]).setInput [13, 10])).reg 0 = 13 := by decide

/-! ### Load -/

/-- L3: the unpaired fifth byte is dropped. -/
theorem test_load_odd_length : (State.load [0x13, 0x00, 0x41, 0x00, 0x07] []).mem = [(0, 0x13), (2, 0x41)] := by decide
/-- L6: all 16 bits are kept. -/
theorem test_load_keeps_16_bits :
    ((State.load [0xff, 0xff, 0x00, 0x80] []).cell 0, (State.load [0xff, 0xff, 0x00, 0x80] []).cell 1) = (65535, 32768) := by
  decide
/-- R20: the codes of the status. -/
theorem test_status_codes : (Status.code .running, Status.code .halted, Status.code (.fault .invalidWord 0 none)) =
    (0, 1, 7) := by decide
/-- Writing back what an unlisted cell reads as leaves nothing listed. -/
theorem test_memory_stays_canonical : Memory.writeCell (Memory.writeCell [] 5 0x1234) 5 0 = [] := by decide

/-! ### Witnesses: for each statement with hypotheses, a state and operands that meet all of them -/

theorem witness_DecodedCellsAreTheEncoding : decode [9, 32768, 32769, 4, 7] = .ok (.add (.reg 0) (.reg 1) (.lit 4)) := by
  rfl
theorem witness_DecodeRejects_unknown : decode [22] = .error (.unknownOpcode 22) := by rfl
theorem witness_DecodeRejects_beyond : decode [21] = .ok .noop ∧ decode [9, 0, 0] = .error (.operandBeyondEnd 9) :=
  ⟨rfl, rfl⟩
theorem witness_DecodeRejects_invalid :
    decode [2, 32775] = .ok (.push (.reg 7)) ∧ decode [2, 32776] = .error (.invalidOperand 2) := ⟨rfl, rfl⟩
theorem witness_Resolution_literal : (32767 : Cell).toNat ≤ 32767 ∧ Operand.ofCell 32767 = some (.lit 32767) := by decide
theorem witness_Resolution_register : (32775 : Cell).toNat ≤ 32775 ∧ (32775 : Cell).toNat = 32768 + (7 : Fin 8).val ∧
    (32768 : Cell).toNat = 32768 + (0 : Fin 8).val := by decide
theorem witness_PopWritesTheTopOfTheStack : ((at' 0 []).setStack [7, 5]).stack = 7 :: [5] := rfl
theorem witness_Mod_nonzero_and_zero :
    ((at' 0 []).val (.lit 1)).toNat ≠ 0 ∧ ((at' 0 []).val (.reg 1)).toNat = 0 := by decide
theorem witness_Jumps_nonzero_and_zero :
    ((at' 0 []).val (.lit 1)).toNat ≠ 0 ∧ ((at' 0 []).val (.lit 0)).toNat = 0 := by decide
theorem witness_CallPushesTheReturnAddress : (at' 32765 []).pc.toNat + 2 ≤ 32767 := by decide
theorem witness_RetPopsIntoThePc : ((at' 0 []).setStack [22]).stack = 22 :: [] := rfl
theorem witness_RmemLoadsTheCell : (((at' 0 []).store 9 32767).cell (((at' 0 []).store 9 32767).val (.lit 9))).toNat ≤ 32767 := by
  decide
theorem witness_InConsumesOneByte_13 : ((at' 0 []).setInput [13, 10]).input = 13 :: [10] ∧ (13 : Byte).toNat = 13 := by decide
theorem witness_InConsumesOneByte_other : ((at' 0 []).setInput [12]).input = 12 :: [] ∧ (12 : Byte).toNat ≠ 13 := by decide
theorem witness_Waiting : (at' 0 [20, 32768]).Waiting := ⟨rfl, rfl, .reg 0, rfl⟩
theorem witness_OwnFault_empty_stack : (at' 0 []).stack = [] := rfl
theorem witness_OwnFault_rmem : 32767 < ((at' 0 [32768]).cell ((at' 0 [32768]).val (.lit 0))).toNat := by decide
theorem witness_OwnFault_call : 32767 < (at' 32766 []).pc.toNat + 2 := by decide
theorem witness_RaisesOwnKind_set : ∃ t, (at' 0 []).status = .running ∧ exec (.set (.lit 0) (.lit 0)) (at' 0 []) = .next t ∧
    t.status = .fault .invalidRegister 0 (some 1) := ⟨_, rfl, rfl, rfl⟩
theorem witness_RaisesOwnKind_ret : ∃ t, (at' 0 []).status = .running ∧ exec .ret (at' 0 []) = .next t ∧
    t.status = .fault .stackUnderflow 0 (some 18) := ⟨_, rfl, rfl, rfl⟩
theorem witness_RaisesOwnKind_mod : ∃ t, exec (.mod (.reg 0) (.lit 1) (.lit 0)) (at' 0 []) = .next t ∧
    t.status = .fault .divisionByZero 0 (some 11) := ⟨_, rfl, rfl⟩
theorem witness_RaisesOwnKind_call : ∃ t, exec (.call (.lit 1)) (at' 32766 []) = .next t ∧
    t.status = .fault .addressOutOfRange 32766 (some 17) := ⟨_, rfl, rfl⟩
theorem witness_RaisesOwnKind_rmem : ∃ t, exec (.rmem (.reg 0) (.lit 0)) (at' 0 [32768]) = .next t ∧
    t.status = .fault .invalidWord 0 (some 15) := ⟨_, rfl, rfl⟩
theorem witness_OpcodeFetch_beyond : (at' 32768 []).status = .running ∧ 32767 < (at' 32768 []).pc.toNat := by decide
theorem witness_OpcodeFetch_last_cell : (at' 32767 [21]).status = .running ∧ (at' 32767 [21]).pc.toNat ≤ 32767 := by decide
theorem witness_UnknownInstruction : (at' 32767 [22]).status = .running ∧ (at' 32767 [22]).pc.toNat ≤ 32767 ∧
    21 < (cellAt (at' 32767 [22]) 0).toNat := by decide
theorem witness_OperandsBeyondMemory : (at' 32767 [19]).status = .running ∧ (at' 32767 [19]).pc.toNat ≤ 32767 ∧
    (cellAt (at' 32767 [19]) 0).toNat ≤ 21 ∧
      32767 < (at' 32767 [19]).pc.toNat + operandCount (cellAt (at' 32767 [19]) 0).toNat := by decide
theorem witness_InvalidOperandCell : (at' 32764 [9, 0, 0, 32776]).status = .running ∧
    (cellAt (at' 32764 [9, 0, 0, 32776]) 0).toNat ≤ 21 ∧
      (at' 32764 [9, 0, 0, 32776]).pc.toNat + operandCount (cellAt (at' 32764 [9, 0, 0, 32776]) 0).toNat ≤ 32767 ∧
        3 ≤ operandCount (cellAt (at' 32764 [9, 0, 0, 32776]) 0).toNat ∧
          32776 ≤ (cellAt (at' 32764 [9, 0, 0, 32776]) 3).toNat := by decide
theorem witness_ValidCells : (at' 32766 [2, 32775]).status = .running ∧ (cellAt (at' 32766 [2, 32775]) 0).toNat ≤ 21 ∧
    (at' 32766 [2, 32775]).pc.toNat + operandCount (cellAt (at' 32766 [2, 32775]) 0).toNat ≤ 32767 ∧
      ∀ k < 2, 1 ≤ k → (cellAt (at' 32766 [2, 32775]) k).toNat ≤ 32775 := by decide
theorem witness_FaultsArePrecise_with_an_opcode : ∃ t, (at' 5 [18]).status = .running ∧ step (at' 5 [18]) = .next t ∧
    t.status = .fault .stackUnderflow 5 (some 18) := ⟨_, rfl, rfl, rfl⟩
theorem witness_FaultsArePrecise_without_an_opcode : ∃ t, step (at' 32768 []) = .next t ∧
    t.status = .fault .addressOutOfRange 32768 none := ⟨_, rfl, rfl⟩
theorem witness_OnlyHaltReachesHalted : ∃ t, (at' 2 [0]).status = .running ∧ step (at' 2 [0]) = .next t ∧
    t.status = .halted := ⟨_, rfl, rfl, rfl⟩
theorem witness_TerminalStatesAreForEver : ((at' 2 [0]).halt).Ended := by
  unfold State.Ended
  decide
theorem witness_StepRunsTheDecodedInstruction : (at' 32767 [21]).status = .running ∧
    decode (at' 32767 [21]).fetchCells = .ok .noop := ⟨rfl, rfl⟩
theorem witness_StepRunsTheInstructionInMemory : (at' 32766 [19, 90]).status = .running ∧
    (at' 32766 [19, 90]).pc.toNat + (Instr.out (.lit 90)).width ≤ 32768 ∧
      encode (.out (.lit 90)) = [cellAt (at' 32766 [19, 90]) 0, cellAt (at' 32766 [19, 90]) 1] := by decide
theorem witness_exec_answers_next : exec (.out (.lit 65)) (at' 0 []) = .next (((at' 0 []).emit 65).advance 2) := rfl
theorem witness_frame_outside_the_store : storedTo (.wmem (.lit 7) (.lit 1)) (at' 0 []) ≠ some 8 ∧
    writtenReg (.set (.reg 0) (.lit 1)) ≠ some 1 := by decide
theorem witness_step_answers_next : step (at' 0 [21]) = .next ((at' 0 [21]).advance 1) := rfl
theorem witness_SuppliedInput_not_waiting : ¬(at' 0 [21]).Waiting := by
  rintro ⟨-, -, a, h⟩
  cases h
theorem witness_Wmem_into_the_next_opcode : ∃ t, exec (.wmem (.lit 3) (.lit 21)) (at' 0 []) = .next t ∧
    ((at' 0 []).val (.lit 3)).toNat = t.pc.toNat := ⟨_, rfl, rfl⟩
theorem witness_FetchReadsTheCells : 3 < 4 ∧ (at' 32764 [9, 0, 0, 7]).pc.toNat + 3 = (32767 : Word).toNat := by decide
theorem witness_SequentialInstructions : ∃ t, isControl .noop = true ∨ (isControl (.push (.lit 1)) = false ∧
    (at' 0 []).status = .running ∧ exec (.push (.lit 1)) (at' 0 []) = .next t ∧ t.status = .running) :=
  ⟨_, .inr ⟨rfl, rfl, rfl, rfl⟩⟩
theorem witness_ThePcLeavesMemory : ∃ t, (at' 32767 [21]).pc.toNat ≤ 32767 ∧ step (at' 32767 [21]) = .next t ∧
    32767 < t.pc.toNat := ⟨_, by decide, rfl, by decide⟩
theorem witness_Invariant_of_a_running_state : (at' 32768 []).Inv :=
  ⟨by decide, by decide, fun _ _ _ h => by cases h⟩
theorem witness_Invariant_of_a_faulted_state : ((at' 5 [18]).raise .stackUnderflow (some 18)).Inv :=
  ⟨by decide, by decide, fun _ _ _ h => by cases h; rfl⟩
theorem witness_CanonicalMemories : Memory.wf [(0, 0x13), (65535, 0x41)] := by decide

end Sys2Proof.Tests
end

section
/-!
SUPPORT. The step forwards: what `step` answers in each of the cases of `step_cases`, and what the fetch of an
instruction says of the cells at `pc`.
-/

namespace Sys2Proof

/-- The opcode map rebuilds every instruction (R51). -/
theorem opcodeMap_statement (i : Instr) : Laws.OpcodeMap.Statement i := by
  cases i <;> exact ⟨_, rfl, rfl⟩

/-- Decoding the encoding of an instruction, whatever follows, gives it back (R48). -/
theorem decode_encode_append (i : Instr) (rest : List Cell) : decode (encode i ++ rest) = .ok i := by
  obtain ⟨f, hf, hb⟩ := opcodeMap_statement i
  generalize ho : i.operands = os at hb
  unfold Laws.OpcodeMap.rebuild at hb
  split at hb <;> cases hb <;> simp [encode, decode, ho, hf]

/-- A list of cells that decodes begins with the encoding of the instruction it decodes to (R42, R44). -/
theorem encode_prefix_of_decode {cells : List Cell} {i : Instr} (h : decode cells = .ok i) : encode i <+: cells := by
  unfold decode at h
  split at h
  · cases h
  rename_i op rest
  split at h
  · cases h
  · rename_i j hf
    cases h
    obtain ⟨ho, hos⟩ := formatOf_f0 hf
    exact ⟨rest, by simp [encode, hos, Instr.opcodeCell_eq ho]⟩
  · rename_i mk hf
    split at h
    · split at h
      · rename_i a rest' _ a' ha
        cases h
        obtain ⟨ho, hos⟩ := formatOf_f1 hf a'
        exact ⟨rest', by simp [encode, hos, Instr.opcodeCell_eq ho, Operand.toCell_of_ofCell ha]⟩
      · cases h
    · cases h
  · rename_i mk hf
    split at h
    · split at h
      · rename_i a b rest' _ _ a' b' ha hb
        cases h
        obtain ⟨ho, hos⟩ := formatOf_f2 hf a' b'
        exact ⟨rest', by
          simp [encode, hos, Instr.opcodeCell_eq ho, Operand.toCell_of_ofCell ha, Operand.toCell_of_ofCell hb]⟩
      · cases h
    · cases h
  · rename_i mk hf
    split at h
    · split at h
      · rename_i a b c rest' _ _ _ a' b' c' ha hb hc
        cases h
        obtain ⟨ho, hos⟩ := formatOf_f3 hf a' b' c'
        exact ⟨rest', by
          simp [encode, hos, Instr.opcodeCell_eq ho, Operand.toCell_of_ofCell ha, Operand.toCell_of_ofCell hb,
            Operand.toCell_of_ofCell hc]⟩
      · cases h
    · cases h

/-- Cells decode to an instruction exactly when they begin with its encoding. -/
theorem decode_eq_ok_iff (cells : List Cell) (i : Instr) : decode cells = .ok i ↔ encode i <+: cells := by
  refine ⟨encode_prefix_of_decode, ?_⟩
  rintro ⟨rest, rfl⟩
  exact decode_encode_append i rest

end Sys2Proof

namespace Sys2Proof.Machine

variable {s t : State} {i : Instr}

/-! ### The step, forwards -/

/-- With a terminal status the state is its own next state (R111). -/
theorem step_of_not_running (h : s.status ≠ .running) : step s = .next s := by
  unfold step
  split
  · exact absurd ‹_› h
  · rfl
  · rfl

/-- A running machine executes the instruction it fetches (R52). -/
theorem step_of_fetch_ok (hr : s.status = .running) (hf : s.fetch = .ok i) : step s = exec i s := by
  simp [step, hr, hf]

/-- A running machine whose fetch is rejected raises the fault of that phase (R53 to R56). -/
theorem step_of_fetch_error {r : Reject} (hr : s.status = .running) (hf : s.fetch = .error r) :
    step s = .next (s.raiseReject r) := by
  simp [step, hr, hf]

/-! ### The fetched instruction -/

/-- A fetched instruction lies inside memory: its last cell is at most cell 32767 (R55). -/
theorem State.pc_add_width_le (h : s.fetch = .ok i) : s.pc.toNat + i.width ≤ Config.memCells := by
  have hlen := (encode_prefix_of_decode h).length_le
  rw [encode_length, State.length_fetchCells] at hlen
  have := i.width_bounds
  omega

/-- The sequential advance over a fetched instruction does not wrap (R16, R59). -/
theorem State.toNat_pc_add_width (h : s.fetch = .ok i) :
    (s.pc + BitVec.ofNat 16 i.width).toNat = s.pc.toNat + i.width := by
  have hle := State.pc_add_width_le h
  simp only [Config.memCells] at hle
  rw [BitVec.toNat_add, BitVec.toNat_ofNat]
  omega

/-- Where the cells at `pc` are the encoding of `i` and `i` fits below address 32768, the fetch gives `i` (R41). -/
theorem State.fetch_of_cells (hfit : s.pc.toNat + i.width ≤ Config.memCells)
    (hcells : ∀ k c, (encode i)[k]? = some c → Memory.readCell s.mem (s.pc.toNat + k) = c) : s.fetch = .ok i := by
  refine (decode_eq_ok_iff _ _).mpr (List.prefix_iff_getElem?.mpr fun k hk => ?_)
  have hw : k < i.width := encode_length i ▸ hk
  have hbound : k < min Config.maxWidth (Config.memCells - s.pc.toNat) := by
    have := i.width_bounds
    omega
  rw [State.getElem?_fetchCells, if_pos hbound, hcells k _ (List.getElem?_eq_getElem hk)]

end Sys2Proof.Machine
end

section
/-!
SUPPORT. Canonical memories are determined by what they read.
-/

namespace Sys2Proof.Machine

/-- In a canonical memory an entry is listed exactly when it is what its offset reads as, and not the default. -/
theorem Memory.mem_iff_readByte {m : Memory} (h : Memory.wf m) (k : Nat) (b : Byte) :
    (k, b) ∈ m ↔ Memory.readByte m k = b ∧ b ≠ Memory.unlisted := by
  induction m with
  | nil => simp [eq_comm]
  | cons p rest ih =>
    obtain ⟨j, c⟩ := p
    obtain ⟨hsorted, hentries⟩ := h
    obtain ⟨hlater, hrest⟩ := List.pairwise_cons.mp hsorted
    have hi := ih ⟨hrest, fun q hq => hentries q (List.mem_cons_of_mem _ hq)⟩
    by_cases hk : j = k
    · subst hk
      have hnot : (j, b) ∉ rest := fun hin => Nat.lt_irrefl j (hlater _ hin)
      have hc : c ≠ Memory.unlisted := (hentries (j, c) List.mem_cons_self).1
      rw [List.mem_cons, or_iff_left hnot, Memory.readByte, if_pos rfl, Prod.mk.injEq]
      constructor
      · rintro ⟨-, rfl⟩
        exact ⟨rfl, hc⟩
      · rintro ⟨rfl, -⟩
        exact ⟨rfl, rfl⟩
    · have hne : (k, b) ≠ (j, c) := fun e => hk (congrArg Prod.fst e).symm
      rw [List.mem_cons, or_iff_right hne, Memory.readByte, if_neg hk, hi]

/-- Canonical memories that read alike at every offset are equal. -/
theorem Memory.eq_of_readByte {m m' : Memory} (h : Memory.wf m) (h' : Memory.wf m')
    (hread : ∀ k, Memory.readByte m k = Memory.readByte m' k) : m = m' := by
  have irrefl : Std.Irrefl fun p q : Host.Cell => p.1 < q.1 := ⟨fun p => Nat.lt_irrefl p.1⟩
  have antisymm : Std.Antisymm fun p q : Host.Cell => p.1 < q.1 := ⟨fun p q hpq hqp => absurd hqp hpq.asymm⟩
  refine h.1.eq_of_mem_iff h'.1 fun ⟨k, b⟩ => ?_
  rw [Memory.mem_iff_readByte h, Memory.mem_iff_readByte h', hread]

/-- A canonical memory lists nothing beyond the last cell. -/
theorem Memory.readByte_beyond {m : Memory} (h : Memory.wf m) {k : Nat} (hk : 2 * Config.memCells ≤ k) :
    Memory.readByte m k = Memory.unlisted := by
  by_contra hne
  have hin := (Memory.mem_iff_readByte h k _).mpr ⟨rfl, hne⟩
  exact absurd (h.2 _ hin).2 hk.not_gt

/-- The byte at an offset is a half of the cell at half the offset (R50). -/
theorem Memory.readByte_eq_of_readCell {m m' : Memory} {k : Nat}
    (h : Memory.readCell m (k / 2) = Memory.readCell m' (k / 2)) : Memory.readByte m k = Memory.readByte m' k := by
  have hlo := congrArg loByte h
  have hhi := congrArg hiByte h
  simp only [Memory.readCell, loByte_cellOfBytes, hiByte_cellOfBytes] at hlo hhi
  rcases Nat.mod_two_eq_zero_or_one k with hk | hk
  · rwa [show 2 * (k / 2) = k by omega] at hlo
  · rwa [show 2 * (k / 2) + 1 = k by omega] at hhi

end Sys2Proof.Machine
end

section
/-!
SUPPORT. What an instruction does to the streams: it is the same function of the rest of the state whatever they hold,
but for `out`, which appends to `OUT`, and `in`, which takes from the front of `INPUT` (R22, R39).
-/

namespace Sys2Proof.Machine

/-- The state with other contents of the two streams. -/
def State.withStreams (s : State) (o : List Word) (n : List Byte) : State := { s with out := o, input := n }

variable {s t : State} (o : List Word) (n : List Byte)

@[simp] theorem State.withStreams_regs : (s.withStreams o n).regs = s.regs := rfl
@[simp] theorem State.withStreams_pc : (s.withStreams o n).pc = s.pc := rfl
@[simp] theorem State.withStreams_stack : (s.withStreams o n).stack = s.stack := rfl
@[simp] theorem State.withStreams_mem : (s.withStreams o n).mem = s.mem := rfl
@[simp] theorem State.withStreams_status : (s.withStreams o n).status = s.status := rfl
@[simp] theorem State.withStreams_out : (s.withStreams o n).out = o := rfl
@[simp] theorem State.withStreams_input : (s.withStreams o n).input = n := rfl
@[simp] theorem State.withStreams_cell (x : Word) : (s.withStreams o n).cell x = s.cell x := rfl
@[simp] theorem State.withStreams_fetch : (s.withStreams o n).fetch = s.fetch := rfl

theorem State.withStreams_self : s.withStreams s.out s.input = s := rfl
theorem State.supply_eq_withStreams (b : Byte) : s.supply b = s.withStreams s.out (s.input ++ [b]) := rfl

/-- A source operand does not read the streams (R57). -/
@[simp] theorem State.withStreams_val (a : Operand) : (s.withStreams o n).val a = s.val a :=
  State.val_of_same_reg (fun _ => rfl) a

/-- A destination operand does not reach the streams (R58). -/
@[simp] theorem State.withStreams_wr (d : Operand) (v : Word) :
    (s.withStreams o n).wr d v = (s.wr d v).withStreams o n := by
  cases d <;> rfl

@[simp] theorem State.withStreams_raise (k : FaultKind) (op : Option Cell) :
    (s.withStreams o n).raise k op = (s.raise k op).withStreams o n := rfl
@[simp] theorem State.withStreams_advance (k : Nat) :
    (s.withStreams o n).advance k = (s.advance k).withStreams o n := rfl
@[simp] theorem State.withStreams_jumpTo (v : Word) :
    (s.withStreams o n).jumpTo v = (s.jumpTo v).withStreams o n := rfl
@[simp] theorem State.withStreams_push (v : Word) :
    (s.withStreams o n).push v = (s.push v).withStreams o n := rfl
@[simp] theorem State.withStreams_setStack (l : List Word) :
    (s.withStreams o n).setStack l = (s.setStack l).withStreams o n := rfl
@[simp] theorem State.withStreams_setReg (r : Fin 8) (v : Word) :
    (s.withStreams o n).setReg r v = (s.setReg r v).withStreams o n := rfl
@[simp] theorem State.withStreams_store (a v : Word) :
    (s.withStreams o n).store a v = (s.store a v).withStreams o n := rfl
@[simp] theorem alu3_withStreams (f : Word → Word → Word) (a b c : Operand) :
    alu3 f a b c (s.withStreams o n) = (alu3 f a b c s).withStreams o n := by
  simp [alu3]

/-- Instructions other than `out` and `in` do the same whatever the streams hold, and leave them as they are. -/
theorem exec_withStreams {i : Instr} (hout : ∀ a, i ≠ .out a) (hin : ∀ a, i ≠ .inp a) (h : exec i s = .next t) :
    exec i (s.withStreams o n) = .next (t.withStreams o n) := by
  cases i with
  | out a => exact absurd rfl (hout a)
  | inp a => exact absurd rfl (hin a)
  | set a b =>
    rcases execSet_cases h with ⟨r, rfl, rfl⟩ | ⟨v, rfl, rfl⟩ <;> simp [exec, execSet, State.wr]
  | pop a => rcases execPop_cases h with ⟨top, rest, hs, rfl⟩ | ⟨hs, rfl⟩ <;> simp [exec, execPop, hs]
  | mod a b c =>
    rcases execMod_cases h with ⟨hc, rfl⟩ | ⟨hc, rfl⟩
    · simp only [exec, execMod, State.withStreams_val, if_neg hc, alu3_withStreams]
      rfl
    · simp only [exec, execMod, State.withStreams_val, if_pos hc, State.withStreams_raise]
  | rmem a b =>
    rcases execRmem_cases h with ⟨hw, rfl⟩ | ⟨hw, rfl⟩ <;> simp [exec, execRmem, Config.regBase, hw]
  | jt a b => cases h; simp only [exec, execJt, State.withStreams_val]; split <;> rfl
  | jf a b => cases h; simp only [exec, execJf, State.withStreams_val]; split <;> rfl
  | call a =>
    rcases execCall_cases h with ⟨hp, rfl⟩ | ⟨hp, rfl⟩ <;> simp [exec, execCall, Config.memCells, hp]
  | ret => rcases execRet_cases h with ⟨top, rest, hs, rfl⟩ | ⟨hs, rfl⟩ <;> simp [exec, execRet, hs]
  | eq a b c | gt a b c | add a b c | mult a b c | and a b c | or a b c =>
    cases h; exact congrArg Host.Outcome.next (alu3_withStreams o n _ a b c)
  | not a b => cases h; simp [exec, execNot]
  | wmem a b => cases h; simp [exec, execWmem]
  | push a => cases h; simp [exec, execPush]
  | jmp a => cases h; simp [exec, execJmp]
  | halt | noop => cases h; rfl

/-- Instructions other than `out` and `in` leave both streams as they are. -/
theorem exec_streams_eq {i : Instr} (hout : ∀ a, i ≠ .out a) (hin : ∀ a, i ≠ .inp a) (h : exec i s = .next t) :
    t.out = s.out ∧ t.input = s.input := by
  have hsame := exec_withStreams s.out s.input hout hin h
  rw [State.withStreams_self, h] at hsame
  injection hsame with ht
  exact ⟨(congrArg State.out ht :), (congrArg State.input ht :)⟩

/-- `out` appends its source word, whatever the streams hold (R87). -/
theorem exec_out_withStreams (a : Operand) :
    exec (.out a) (s.withStreams o n) = .next ((s.advance 2).withStreams (o ++ [s.val a]) n) := by
  simp only [exec, execOut, State.withStreams_val]
  rfl

/-- With a byte available `in` consumes it, whatever `OUT` holds and whatever bytes follow (R88). -/
theorem inputByte_withStreams (swallow : Bool) (a : Operand) {ch : Byte} {rest : List Byte}
    (h : s.input = ch :: rest) :
    inputByte swallow a (s.withStreams o (ch :: n)) = (inputByte swallow a s).withStreams o n := by
  simp only [inputByte, State.withStreams_input, h]
  split
  · rfl
  · exact congrArg (State.advance · 2) (State.withStreams_wr (s := s.setInput rest) o n a _)

/-- After `in` the first byte is gone and `OUT` is as before (R88). -/
theorem inputByte_streams (swallow : Bool) (a : Operand) {ch : Byte} {rest : List Byte} (h : s.input = ch :: rest) :
    (inputByte swallow a s).out = s.out ∧ (inputByte swallow a s).input = rest := by
  simp only [inputByte, h]
  split <;> simp

/-- The words an instruction emits (R22, R87). -/
def emittedBy (i : Instr) (s : State) : List Word :=
  match i with
  | .out a => [s.val a]
  | _ => []

theorem emittedBy_of_ne_out {i : Instr} (hout : ∀ a, i ≠ .out a) : emittedBy i s = [] := by
  unfold emittedBy
  split
  · exact absurd rfl (hout _)
  · rfl

/-- An instruction appends what it emits to `OUT`, and does the same whatever `OUT` held before (R22). -/
theorem exec_emits {i : Instr} (h : exec i s = .next t) :
    t.out = s.out ++ emittedBy i s ∧
      exec i (s.withStreams o s.input) = .next (t.withStreams (o ++ emittedBy i s) t.input) := by
  by_cases hout : ∃ a, i = .out a
  · obtain ⟨a, rfl⟩ := hout
    cases h
    exact ⟨rfl, exec_out_withStreams o _ a⟩
  rw [emittedBy_of_ne_out (not_exists.mp hout), List.append_nil, List.append_nil]
  by_cases hin : ∃ a, i = .inp a
  · obtain ⟨a, rfl⟩ := hin
    cases h
    cases hs : s.input with
    | nil => simp [exec, execInp, inputByte, hs]
    | cons ch rest =>
      obtain ⟨hou, hi⟩ := inputByte_streams Config.inCrSwallow a hs
      exact ⟨hou, by rw [hi]; exact congrArg _ (inputByte_withStreams o rest _ a hs)⟩
  · obtain ⟨hou, hi⟩ := exec_streams_eq (not_exists.mp hout) (not_exists.mp hin) h
    exact ⟨hou, hi ▸ exec_withStreams o s.input (not_exists.mp hout) (not_exists.mp hin) h⟩

/-- Unless it waits for a byte, an instruction does the same whatever bytes follow those available (R22, R106). -/
theorem exec_supply {i : Instr} (b : Byte) (hw : s.input = [] → ∀ a, i ≠ .inp a) (h : exec i s = .next t) :
    exec i (s.supply b) = .next (t.supply b) := by
  rw [State.supply_eq_withStreams, State.supply_eq_withStreams]
  by_cases hin : ∃ a, i = .inp a
  · obtain ⟨a, rfl⟩ := hin
    cases h
    cases hs : s.input with
    | nil => exact absurd rfl (hw hs a)
    | cons ch rest =>
      obtain ⟨hou, hi⟩ := inputByte_streams Config.inCrSwallow a hs
      rw [hou, hi]
      exact congrArg _ (inputByte_withStreams s.out (rest ++ [b]) _ a hs)
  by_cases hout : ∃ a, i = .out a
  · obtain ⟨a, rfl⟩ := hout
    cases h
    exact exec_out_withStreams _ _ a
  · obtain ⟨hou, hi⟩ := exec_streams_eq (not_exists.mp hout) (not_exists.mp hin) h
    rw [hou, hi]
    exact exec_withStreams _ _ (not_exists.mp hout) (not_exists.mp hin) h

end Sys2Proof.Machine
end

section
/-!
SUPPORT. What every instruction does to each other part of the state, said once: the place it may write (R14, R29, R58,
R86), the stack (R18), and the status with its fault record (R20, R100).
-/

namespace Sys2Proof.Machine

open Sys2Proof.Claims

variable {s t u : State} {i : Instr}

/-- From `s` to `t` no cell changes but the one at `x`, and no register but `r`. -/
def ChangesAtMost (x : Option Word) (r : Option (Fin 8)) (s t : State) : Prop :=
  (∀ y, x ≠ some y → t.cell y = s.cell y) ∧ ∀ q, r ≠ some q → t.reg q = s.reg q

/-- Where memory and registers are the same data, nothing changes. -/
theorem changesAtMost_of_eq (x : Option Word) (r : Option (Fin 8)) (hmem : t.mem = s.mem) (hregs : t.regs = s.regs) :
    ChangesAtMost x r s t :=
  ⟨fun y _ => congrArg (Memory.readCell · y.toNat) hmem, fun q _ => congrArg (·[q]) hregs⟩

/-- Write resolution changes the place its destination names only (R58); `u` is `s` but for other fields. -/
theorem changesAtMost_wr (d : Operand) (v : Word) (hmem : u.mem = s.mem) (hregs : u.regs = s.regs) (n : Nat) :
    ChangesAtMost (destCell d) (destReg d) s ((u.wr d v).advance n) := by
  obtain ⟨hcell, hreg⟩ := changesAtMost_of_eq none none hmem hregs
  constructor
  · intro y hy
    have hd : d ≠ .lit y := fun e => hy (by rw [e]; rfl)
    rw [State.advance_cell, State.wr_cell, if_neg hd, hcell y (by simp)]
  · intro q hq
    have hd : d ≠ .reg q := fun e => hq (by rw [e]; rfl)
    rw [State.advance_reg, State.wr_reg, if_neg hd, hreg q (by simp)]

/-- A data store changes the cell at its address only (R29). -/
theorem changesAtMost_store (a v : Word) (n : Nat) : ChangesAtMost (some a) none s ((s.store a v).advance n) := by
  refine ⟨fun y hy => ?_, fun q _ => rfl⟩
  have hne : y ≠ a := fun e => hy (congrArg some e.symm)
  rw [State.advance_cell, State.cell_store, if_neg hne]

/-- The frame of every instruction: the cell at `storedTo` and the register `writtenReg`. -/
theorem exec_changesAtMost (h : exec i s = .next t) : ChangesAtMost (storedTo i s) (writtenReg i) s t := by
  cases i with
  | set a b =>
    rcases execSet_cases h with ⟨r, rfl, rfl⟩ | ⟨_, _, rfl⟩
    · exact changesAtMost_wr (.reg r) _ rfl rfl _
    · exact changesAtMost_of_eq _ _ rfl rfl
  | pop a =>
    rcases execPop_cases h with ⟨_, rest, _, rfl⟩ | ⟨_, rfl⟩
    · exact changesAtMost_wr (u := s.setStack rest) a _ rfl rfl _
    · exact changesAtMost_of_eq _ _ rfl rfl
  | mod a b c =>
    rcases execMod_cases h with ⟨_, rfl⟩ | ⟨_, rfl⟩
    · exact changesAtMost_wr a _ rfl rfl _
    · exact changesAtMost_of_eq _ _ rfl rfl
  | rmem a b =>
    rcases execRmem_cases h with ⟨_, rfl⟩ | ⟨_, rfl⟩
    · exact changesAtMost_wr a _ rfl rfl _
    · exact changesAtMost_of_eq _ _ rfl rfl
  | inp a =>
    rcases execInp_cases h with ⟨_, rfl⟩ | ⟨_, rest, _, ⟨_, rfl⟩ | ⟨_, rfl⟩⟩
    · exact changesAtMost_of_eq _ _ rfl rfl
    · exact changesAtMost_of_eq _ _ rfl rfl
    · exact changesAtMost_wr (u := s.setInput rest) a _ rfl rfl _
  | jt a b => rcases execJt_cases h with ⟨_, rfl⟩ | ⟨_, rfl⟩ <;> exact changesAtMost_of_eq _ _ rfl rfl
  | jf a b => rcases execJf_cases h with ⟨_, rfl⟩ | ⟨_, rfl⟩ <;> exact changesAtMost_of_eq _ _ rfl rfl
  | call a => rcases execCall_cases h with ⟨_, rfl⟩ | ⟨_, rfl⟩ <;> exact changesAtMost_of_eq _ _ rfl rfl
  | ret => rcases execRet_cases h with ⟨_, _, _, rfl⟩ | ⟨_, rfl⟩ <;> exact changesAtMost_of_eq _ _ rfl rfl
  | wmem a b => cases h; exact changesAtMost_store _ _ _
  | eq a b c | gt a b c | add a b c | mult a b c | and a b c | or a b c | not a b =>
    cases h; exact changesAtMost_wr a _ rfl rfl _
  | halt | push a | jmp a | out a | noop => cases h; exact changesAtMost_of_eq _ _ rfl rfl

/-- The stack changes at its top only: what each instruction does to it (R18). -/
theorem exec_stack_cases (h : exec i s = .next t) :
    t.stack = s.stack ∨
      (((∃ a, i = .push a) ∨ ∃ a, i = .call a) ∧ ∃ v, t.stack = v :: s.stack) ∨
        (((∃ a, i = .pop a) ∨ i = .ret) ∧ ∃ v, s.stack = v :: t.stack) := by
  cases i with
  | push a => cases h; exact .inr (.inl ⟨.inl ⟨a, rfl⟩, _, rfl⟩)
  | call a =>
    rcases execCall_cases h with ⟨_, rfl⟩ | ⟨_, rfl⟩
    · exact .inr (.inl ⟨.inr ⟨a, rfl⟩, _, rfl⟩)
    · exact .inl rfl
  | pop a =>
    rcases execPop_cases h with ⟨top, rest, hs, rfl⟩ | ⟨_, rfl⟩
    · exact .inr (.inr ⟨.inl ⟨a, rfl⟩, top, by simpa using hs⟩)
    · exact .inl rfl
  | ret =>
    rcases execRet_cases h with ⟨top, rest, hs, rfl⟩ | ⟨_, rfl⟩
    · exact .inr (.inr ⟨.inr rfl, top, hs⟩)
    · exact .inl rfl
  | set a b => rcases execSet_cases h with ⟨_, _, rfl⟩ | ⟨_, _, rfl⟩ <;> simp
  | mod a b c => rcases execMod_cases h with ⟨_, rfl⟩ | ⟨_, rfl⟩ <;> simp
  | rmem a b => rcases execRmem_cases h with ⟨_, rfl⟩ | ⟨_, rfl⟩ <;> simp
  | inp a => rcases execInp_cases h with ⟨_, rfl⟩ | ⟨_, _, _, ⟨_, rfl⟩ | ⟨_, rfl⟩⟩ <;> simp
  | jt a b => rcases execJt_cases h with ⟨_, rfl⟩ | ⟨_, rfl⟩ <;> simp
  | jf a b => rcases execJf_cases h with ⟨_, rfl⟩ | ⟨_, rfl⟩ <;> simp
  | eq a b c | gt a b c | add a b c | mult a b c | and a b c | or a b c | not a b => cases h; simp [alu3]
  | halt | jmp a | out a | wmem a b | noop => cases h; exact .inl rfl

/-- What an instruction does to the status: nothing, or it is `halt`, or it raises a fault with its opcode recorded
(R60, R76, R100). -/
theorem exec_status_cases (h : exec i s = .next t) :
    t.status = s.status ∨ (i = .halt ∧ t = s.halt) ∨ ∃ kind, t = s.raise kind (some i.opcodeCell) := by
  cases i with
  | halt => cases h; exact .inr (.inl ⟨rfl, rfl⟩)
  | set a b =>
    rcases execSet_cases h with ⟨_, _, rfl⟩ | ⟨_, _, rfl⟩
    · simp
    · exact .inr (.inr ⟨_, rfl⟩)
  | pop a =>
    rcases execPop_cases h with ⟨_, _, _, rfl⟩ | ⟨_, rfl⟩
    · simp
    · exact .inr (.inr ⟨_, rfl⟩)
  | mod a b c =>
    rcases execMod_cases h with ⟨_, rfl⟩ | ⟨_, rfl⟩
    · simp
    · exact .inr (.inr ⟨_, rfl⟩)
  | rmem a b =>
    rcases execRmem_cases h with ⟨_, rfl⟩ | ⟨_, rfl⟩
    · simp
    · exact .inr (.inr ⟨_, rfl⟩)
  | call a =>
    rcases execCall_cases h with ⟨_, rfl⟩ | ⟨_, rfl⟩
    · exact .inl rfl
    · exact .inr (.inr ⟨_, rfl⟩)
  | ret =>
    rcases execRet_cases h with ⟨_, _, _, rfl⟩ | ⟨_, rfl⟩
    · exact .inl rfl
    · exact .inr (.inr ⟨_, rfl⟩)
  | inp a => rcases execInp_cases h with ⟨_, rfl⟩ | ⟨_, _, _, ⟨_, rfl⟩ | ⟨_, rfl⟩⟩ <;> simp
  | jt a b => rcases execJt_cases h with ⟨_, rfl⟩ | ⟨_, rfl⟩ <;> simp
  | jf a b => rcases execJf_cases h with ⟨_, rfl⟩ | ⟨_, rfl⟩ <;> simp
  | eq a b c | gt a b c | add a b c | mult a b c | and a b c | or a b c | not a b => cases h; simp [alu3]
  | push a | jmp a | out a | wmem a b | noop => cases h; exact .inl rfl

/-! ### The invariant -/

theorem State.Inv.raise (hs : s.Inv) (kind : FaultKind) (op : Option Cell) : (s.raise kind op).Inv := by
  obtain ⟨hmem, hpc, -⟩ := hs
  exact ⟨hmem, hpc, fun _ _ _ e => by cases e; rfl⟩

/-- Any instruction keeps memory in canonical form (log entry 1). -/
theorem exec_wf_mem (hmem : Memory.wf s.mem) (h : exec i s = .next t) : Memory.wf t.mem := by
  rcases exec_mem_cases h with hm | ⟨x, v, hm⟩ <;> rw [hm]
  · exact hmem
  · exact Memory.wf_writeCell _ hmem x.isLt

/-- A fetched instruction keeps `pc` in 0 to 32768 (R16, R24). -/
theorem exec_pc_le (hpc : s.pc.toNat ≤ Config.memCells) (hf : s.fetch = .ok i) (h : exec i s = .next t) :
    t.pc.toNat ≤ Config.memCells := by
  rcases exec_pc_cases h with hp | ⟨v, hp⟩ | hp <;> rw [hp]
  · exact hpc
  · rw [toCell_toNat]
    exact v.isLt.le
  · rw [State.toNat_pc_add_width hf]
    exact State.pc_add_width_le hf

/-- A fetched instruction of a running machine keeps the invariant. -/
theorem exec_keeps_inv (hs : s.Inv) (hr : s.status = .running) (hf : s.fetch = .ok i) (h : exec i s = .next t) :
    t.Inv := by
  obtain ⟨hmem, hpc, -⟩ := hs
  refine ⟨exec_wf_mem hmem h, exec_pc_le hpc hf h, fun kind p op hfault => ?_⟩
  rcases exec_status_cases h with hst | ⟨-, rfl⟩ | ⟨k, rfl⟩
  · rw [hst, hr] at hfault
    cases hfault
  · cases hfault
  · cases hfault
    rfl

end Sys2Proof.Machine
end

section
/-!
SUPPORT. The cells of memory after the load of an image.
-/

namespace Sys2Proof.Machine

/-- A cell inside the array after a load: the image's two bytes, low byte first, where it has both, else 0 (R108). -/
theorem Memory.readCell_ofImage (image : List Byte) {a : Nat} (ha : a < Config.memCells) :
    (Memory.readCell (Memory.ofImage image) a).toNat =
      if 2 * a + 1 < image.length then (image.getD (2 * a) 0).toNat + 256 * (image.getD (2 * a + 1) 0).toNat
      else 0 := by
  simp only [Memory.readCell, Memory.readByte_ofImage, cellOfBytes_toNat, Memory.unlisted]
  simp only [Config.memCells] at *
  split
  · have h0 : 2 * a < 2 * min (image.length / 2) 32768 := by omega
    have h1 : 2 * a + 1 < 2 * min (image.length / 2) 32768 := by omega
    simp [List.getD_eq_getElem?_getD, h0, h1]
  · have h0 : ¬2 * a < 2 * min (image.length / 2) 32768 := by omega
    have h1 : ¬2 * a + 1 < 2 * min (image.length / 2) 32768 := by omega
    simp [List.getD_eq_getElem?_getD, h0, h1]

end Sys2Proof.Machine
end

section
/-!
PROOFS. The statements about the state (spec/10_state.md), each from the laws above.
-/

namespace Sys2Proof.StateProofs

open Sys2Proof.Machine Sys2Proof.Claims

/-- Settles O42: the frame of every instruction, by cases on the instruction. -/
theorem onlyTheDestinationChanges : Obligations.OnlyTheDestinationChanges :=
  fun _ _ _ h => exec_changesAtMost h

/-- Settles O46: a step is the same function of the rest of the state whatever `OUT` holds. -/
theorem nothingReadsTheOutput : Obligations.NothingReadsTheOutput := by
  intro s t h
  rcases step_cases h with ⟨hr, rfl⟩ | ⟨hr, i, hf, hx⟩ | ⟨hr, r, hf, rfl⟩
  · refine ⟨[], (List.append_nil _).symm, fun o => ?_⟩
    rw [List.append_nil]
    exact step_of_not_running (s := t.withStreams o t.input) hr
  · refine ⟨emittedBy i s, (exec_emits [] hx).1, fun o => ?_⟩
    exact (step_of_fetch_ok (s := s.withStreams o s.input) hr hf).trans (exec_emits o hx).2
  · refine ⟨[], by cases r <;> exact (List.append_nil _).symm, fun o => ?_⟩
    rw [List.append_nil]
    exact (step_of_fetch_error (s := s.withStreams o s.input) hr hf).trans (by cases r <;> rfl)

/-- Settles O47: only a waiting `in` can tell whether a byte was supplied before its step. -/
theorem suppliedInputCommutesWithAStep : Obligations.SuppliedInputCommutesWithAStep := by
  intro s t b hw h
  rcases step_cases h with ⟨hr, rfl⟩ | ⟨hr, i, hf, hx⟩ | ⟨hr, r, hf, rfl⟩
  · exact step_of_not_running (s := t.supply b) hr
  · have hready : s.input = [] → ∀ a, i ≠ .inp a := fun he a hi => hw ⟨hr, he, a, hi ▸ hf⟩
    exact (step_of_fetch_ok (s := s.supply b) hr hf).trans (exec_supply b hready hx)
  · exact (step_of_fetch_error (s := s.supply b) hr hf).trans (by cases r <;> rfl)

/-- Settles O51: the fault record is the only part of the invariant that a rejected fetch touches. -/
theorem everyStepKeepsTheInvariant : Obligations.EveryStepKeepsTheInvariant := by
  intro s t hs h
  rcases step_cases h with ⟨-, rfl⟩ | ⟨hr, i, hf, hx⟩ | ⟨-, r, -, rfl⟩
  · exact hs
  · exact exec_keeps_inv hs hr hf hx
  · obtain ⟨kind, op, he⟩ := s.raiseReject_eq r
    exact he ▸ hs.raise kind op

/-- Settles O38, by induction on the number of steps. -/
theorem terminalStatesAreForEver : Obligations.TerminalStatesAreForEver := by
  intro k s hs
  induction k with
  | zero => exact run_zero s
  | succ k ih => rw [run_succ k (step_of_not_running hs), ih]

/-- Settles O40: the fetched cells begin with the encoding, so they decode to the instruction. -/
theorem stepRunsTheInstructionInMemory : Obligations.StepRunsTheInstructionInMemory :=
  fun _ _ hr hfit hcells => step_of_fetch_ok hr (State.fetch_of_cells hfit hcells)

/-- Settles O44, by cases on the instruction. -/
theorem theStackChangesAtItsTopOnly : Obligations.TheStackChangesAtItsTopOnly :=
  fun _ _ _ h => exec_stack_cases h

/-- Settles O45: `out` and `in` each move one stream, and every other instruction leaves both. -/
theorem streamsMoveByOutAndInOnly : Obligations.StreamsMoveByOutAndInOnly := by
  intro i s t h
  by_cases hout : ∃ a, i = .out a
  · obtain ⟨a, rfl⟩ := hout
    cases h
    exact ⟨.inr ⟨a, rfl, rfl⟩, .inl rfl⟩
  by_cases hin : ∃ a, i = .inp a
  · obtain ⟨a, rfl⟩ := hin
    rcases execInp_cases h with ⟨-, rfl⟩ | ⟨ch, rest, hs, ⟨-, rfl⟩ | ⟨-, rfl⟩⟩
    · exact ⟨.inl rfl, .inl rfl⟩
    · exact ⟨.inl rfl, .inr ⟨a, ch, rfl, hs⟩⟩
    · exact ⟨.inl (by simp), .inr ⟨a, ch, rfl, by simpa using hs⟩⟩
  · obtain ⟨ho, hi⟩ := exec_streams_eq (not_exists.mp hout) (not_exists.mp hin) h
    exact ⟨.inl ho, .inl hi⟩

/-- Settles O50: of the things an instruction can do to `pc`, only the sequential advance leads above 32767. -/
theorem thePcLeavesMemoryOnlyAtItsEnd : Obligations.ThePcLeavesMemoryOnlyAtItsEnd := by
  intro s t hpc h hout
  rcases step_cases h with ⟨-, rfl⟩ | ⟨hr, i, hf, hx⟩ | ⟨-, r, -, rfl⟩
  · omega
  · rcases exec_pc_cases hx with hp | ⟨v, hp⟩ | hp <;> rw [hp] at hout ⊢
    · omega
    · have := v.isLt
      rw [toCell_toNat] at hout
      omega
    · have hfit := State.pc_add_width_le hf
      rw [State.toNat_pc_add_width hf] at hout ⊢
      simp only [Config.memCells] at hfit
      exact ⟨by omega, i, hf, by omega⟩
  · obtain ⟨kind, op, he⟩ := s.raiseReject_eq r
    rw [he, State.raise_pc] at hout
    omega

/-- Settles O52: the load gives a canonical memory, `pc` 0 and no fault record. -/
theorem everyLoadHasTheInvariant : Obligations.EveryLoadHasTheInvariant :=
  fun image _ => ⟨Memory.wf_ofImage image, Nat.zero_le _, fun _ _ _ e => by cases e⟩

/-- Settles O54: the fields by the definition of the load, the cells by the bytes that the image lists. -/
theorem loadFillsMemoryFromTheImage : Obligations.LoadFillsMemoryFromTheImage := by
  intro image input
  refine ⟨fun r => ?_, rfl, rfl, rfl, rfl, rfl, fun x => Memory.readCell_ofImage image x.isLt⟩
  simp [State.reg]

/-- Settles O55: equal cells have equal bytes, and nothing is listed beyond the last cell. -/
theorem canonicalMemoriesAreDeterminedByTheirCells : Obligations.CanonicalMemoriesAreDeterminedByTheirCells := by
  intro m m' h h' hcells
  refine Memory.eq_of_readByte h h' fun k => ?_
  by_cases hk : k < 2 * Config.memCells
  · exact Memory.readByte_eq_of_readCell (hcells (k / 2) (by simp only [Config.memCells] at hk; omega))
  · rw [Memory.readByte_beyond h (not_lt.mp hk), Memory.readByte_beyond h' (not_lt.mp hk)]

/-- Settles O53: the reset state is the load of the empty image with no input. -/
theorem resetHasTheInvariant : Obligations.ResetHasTheInvariant :=
  everyLoadHasTheInvariant [] []

end Sys2Proof.StateProofs
end

section
/-!
PROOFS. The statements about memory (spec/20_memory.md), each from the laws above.
-/

namespace Sys2Proof.Machine

variable {s t : State} {i : Instr}

/-- An instruction leaves each cell as it is or puts the zero extension of a word there (R33). -/
theorem exec_cell_cases (h : exec i s = .next t) (x : Word) :
    t.cell x = s.cell x ∨ ∃ v : Word, t.cell x = Word.toCell v := by
  rcases exec_mem_cases h with hm | ⟨a, v, hm⟩
  · exact .inl (congrArg (Memory.readCell · x.toNat) hm)
  · have ht : t.cell x = (s.store a v).cell x := congrArg (Memory.readCell · x.toNat) hm
    rw [ht, State.cell_store]
    split
    · exact .inr ⟨v, rfl⟩
    · exact .inl rfl

end Sys2Proof.Machine

namespace Sys2Proof.MemoryProofs

open Sys2Proof.Machine

/-- Settles O43: only an executed instruction stores, and what it stores is a zero extended word. -/
theorem stepsStoreOnlyWords : Obligations.StepsStoreOnlyWords := by
  intro s t h x
  rcases step_cases h with ⟨-, rfl⟩ | ⟨-, i, -, hx⟩ | ⟨-, r, -, rfl⟩
  · exact .inl rfl
  · rcases exec_cell_cases hx x with hc | ⟨v, hc⟩
    · exact .inl hc
    · refine .inr ?_
      rw [hc, toCell_toNat]
      exact Nat.le_of_lt_succ v.isLt
  · obtain ⟨kind, op, he⟩ := s.raiseReject_eq r
    rw [he]
    exact .inl (State.raise_cell s kind op x)

/-- Settles O48: an address in memory lies within the at most four cells that are fetched. -/
theorem fetchReadsTheCellsThatStoresWrite : Obligations.FetchReadsTheCellsThatStoresWrite := by
  intro s k x hk hx
  have hfetched : k < min Config.maxWidth (Config.memCells - s.pc.toNat) := by
    have := x.isLt
    simp only [Config.maxWidth, Config.memCells]
    omega
  rw [State.getElem?_fetchCells, if_pos hfetched, hx, State.cell]

end Sys2Proof.MemoryProofs
end

section
/-!
PROOFS. The statements about the encoding (spec/30_encoding.md), each from the laws above.
-/

namespace Sys2Proof

/-- An instruction has as many operands as the table of R43 gives its opcode. -/
theorem Instr.length_operands (i : Instr) : i.operands.length = Claims.operandCount i.opcode := by
  cases i <;> rfl

/-- The bytes of cells read back as the cells, and the bytes after them pair up on their own (R50). -/
theorem cellsOfBytes_bytesOfCells_append (cells : List Cell) (rest : List Byte) :
    cellsOfBytes (bytesOfCells cells ++ rest) = cells ++ cellsOfBytes rest := by
  induction cells with
  | nil => rfl
  | cons c cells ih => simp [bytesOfCells, cellsOfBytes, ih]

end Sys2Proof

namespace Sys2Proof.EncodingProofs

/-- Settles O1: the row of the opcode map rebuilds the instruction from its operands, and each operand's cell decodes to
that operand. -/
theorem decodeOfEncodeIsTheInstruction : Obligations.DecodeOfEncodeIsTheInstruction :=
  decode_encode_append

/-- Settles O2: every accepting branch of the decoder has read the encoding's cells and no others. -/
theorem decodedCellsAreTheEncoding : Obligations.DecodedCellsAreTheEncoding := by
  intro cells i h
  obtain ⟨rest, hrest⟩ := encode_prefix_of_decode h
  exact ⟨rest, hrest.symm⟩

/-- Settles O3: the row of the table of R43, by cases on the instruction; the rest follows from the operand count. -/
theorem widthIsAFunctionOfTheOpcode : Obligations.WidthIsAFunctionOfTheOpcode :=
  fun i => ⟨i.length_operands, congrArg (1 + ·) i.length_operands, encode_length i, rfl, i.opcode_le⟩

/-- Settles O5: the bytes read back as the encoding and some cells after it, which decode to the instruction. -/
theorem imageBytesDecodeToTheInstruction : Obligations.ImageBytesDecodeToTheInstruction := by
  intro i rest
  rw [decodeBytes, cellsOfBytes_bytesOfCells_append]
  exact decode_encode_append i _

/-- Settles O6, by running the decoder on each list of cells. -/
theorem wordsOfTheOpcodeMapDecode : Obligations.WordsOfTheOpcodeMapDecode :=
  ⟨rfl, rfl, rfl, rfl, rfl, rfl, rfl⟩

end Sys2Proof.EncodingProofs
end

section
/-!
SUPPORT. The decoder in its four outcomes, and the fetched cells as the cells at `pc` and after it.
-/

namespace Sys2Proof

open Claims

/-- How many operands a row of the opcode map takes (R41). -/
def Format.arity : Format → Nat
  | .f0 _ => 0
  | .f1 _ => 1
  | .f2 _ => 2
  | .f3 _ => 3

/-- A row of the opcode map takes as many operands as the table of R43 gives its opcode. -/
theorem operandCount_of_formatOf {n : Nat} {f : Format} (h : formatOf n = some f) : operandCount n = f.arity := by
  unfold formatOf at h
  split at h <;> cases h <;> rfl

theorem operandCount_le (n : Nat) : operandCount n ≤ 3 := by
  unfold operandCount
  split_ifs <;> decide

/-- What decoding answers for an opcode cell and the cells after it, in the phase order of R52: exactly one of these
four cases holds. -/
theorem decode_cons_cases (op : Cell) (rest : List Cell) :
    (21 < op.toNat ∧ decode (op :: rest) = .error (.unknownOpcode op)) ∨
      (op.toNat ≤ 21 ∧ rest.length < operandCount op.toNat ∧
        decode (op :: rest) = .error (.operandBeyondEnd op)) ∨
      (op.toNat ≤ 21 ∧ operandCount op.toNat ≤ rest.length ∧
        (∃ w ∈ rest.take (operandCount op.toNat), 32776 ≤ w.toNat) ∧
        decode (op :: rest) = .error (.invalidOperand op)) ∨
      (op.toNat ≤ 21 ∧ operandCount op.toNat ≤ rest.length ∧
        (∀ w ∈ rest.take (operandCount op.toNat), ¬32776 ≤ w.toNat) ∧
        ∃ i, decode (op :: rest) = .ok i) := by
  rcases hf : formatOf op.toNat with _ | f
  · exact .inl ⟨(formatOf_eq_none_iff _).mp hf, by simp [decode, hf]⟩
  have hop : op.toNat ≤ 21 := not_lt.mp fun hlt => by simp [(formatOf_eq_none_iff _).mpr hlt] at hf
  have hn := operandCount_of_formatOf hf
  refine .inr ?_
  simp only [← Operand.ofCell_eq_none_iff, hn, hop, true_and]
  cases f with
  | f0 i => simp [Format.arity, decode, hf]
  | f1 mk =>
    rcases rest with _ | ⟨a, rest⟩
    · simp [Format.arity, decode, hf]
    · cases ha : Operand.ofCell a <;> simp [Format.arity, decode, hf, ha]
  | f2 mk =>
    rcases rest with _ | ⟨a, _ | ⟨b, rest⟩⟩
    · simp [Format.arity, decode, hf]
    · simp [Format.arity, decode, hf]
    · cases ha : Operand.ofCell a <;> cases hb : Operand.ofCell b <;> simp [Format.arity, decode, hf, ha, hb]
  | f3 mk =>
    rcases rest with _ | ⟨a, _ | ⟨b, _ | ⟨c, rest⟩⟩⟩
    · simp [Format.arity, decode, hf]
    · simp [Format.arity, decode, hf]
    · simp [Format.arity, decode, hf]
    · cases ha : Operand.ofCell a <;> cases hb : Operand.ofCell b <;> cases hc : Operand.ofCell c <;>
        simp [Format.arity, decode, hf, ha, hb, hc]

/-- The encoding of a decoded instruction is its opcode cell and as many of the cells after it as R43 gives it. -/
theorem encode_eq_of_decode_cons {op : Cell} {rest : List Cell} {i : Instr} (h : decode (op :: rest) = .ok i) :
    encode i = op :: rest.take (operandCount op.toNat) := by
  obtain ⟨hop, hrest⟩ := List.cons_prefix_cons.mp (encode_prefix_of_decode h)
  have hlen : (i.operands.map Operand.toCell).length = operandCount op.toNat := by
    rw [List.length_map, i.length_operands, ← hop, i.opcodeCell_toNat]
  rw [encode, hop, List.prefix_iff_eq_take.mp hrest, hlen]

/-- A raw operand up to 32775 is a literal or a register code, by its value (R44). -/
theorem Operand.ofCell_cases {w : Cell} (h : w.toNat ≤ 32775) :
    (w.toNat ≤ 32767 ∧ Operand.ofCell w = some (.lit w.low15)) ∨
      ∃ r : Fin 8, w.toNat = 32768 + r.val ∧ Operand.ofCell w = some (.reg r) := by
  unfold Operand.ofCell Config.regBase
  by_cases hlit : w.toNat < 32768
  · exact .inl ⟨Nat.le_of_lt_succ hlit, if_pos hlit⟩
  · have hreg : w.toNat - 32768 < 8 := by omega
    have hsum : w.toNat = 32768 + (w.toNat - 32768) := by omega
    exact .inr ⟨⟨w.toNat - 32768, hreg⟩, hsum, by rw [if_neg hlit, dif_pos hreg]⟩

end Sys2Proof

namespace Sys2Proof.Machine

open Claims

variable {s t : State} {i : Instr}

/-- The fetched cells after the opcode cell. -/
def State.operandCells (s : State) : List Cell := s.fetchCells.tail

/-- The fetched operand cells are up to three cells after `pc`, none beyond the last (R31, R55). -/
theorem State.operandCells_eq (s : State) :
    s.operandCells = (List.range (min 3 (32767 - s.pc.toNat))).map fun k => cellAt s (k + 1) := by
  have hlen : min Config.maxWidth (Config.memCells - s.pc.toNat) - 1 = min 3 (32767 - s.pc.toNat) := by
    simp only [Config.maxWidth, Config.memCells]
    omega
  rw [State.operandCells, State.fetchCells, ← List.map_tail, List.tail_range, hlen, List.range'_eq_map_range,
    List.map_map]
  simp only [Function.comp_def, Nat.add_comm 1, cellAt]

/-- With `pc` inside memory the first fetched cell is the cell at `pc` (R53). -/
theorem State.fetchCells_eq_cellAt_cons (h : s.pc.toNat ≤ 32767) : s.fetchCells = cellAt s 0 :: s.operandCells :=
  State.fetchCells_eq_cons (Nat.lt_succ_of_le h)

theorem State.length_operandCells (s : State) : s.operandCells.length = min 3 (32767 - s.pc.toNat) := by
  rw [State.operandCells_eq, List.length_map, List.length_range]

theorem State.le_length_operandCells {n : Nat} (hn : n ≤ 3) (hfit : s.pc.toNat + n ≤ 32767) :
    n ≤ s.operandCells.length := by
  rw [State.length_operandCells]
  omega

/-- The first `n` operand cells of an instruction that fits are the `n` cells after `pc`. -/
theorem State.take_operandCells {n : Nat} (hn : n ≤ 3) (hfit : s.pc.toNat + n ≤ 32767) :
    s.operandCells.take n = (List.range n).map fun k => cellAt s (k + 1) := by
  rw [State.operandCells_eq, ← List.map_take, List.take_range, Nat.min_eq_left (by omega)]

/-- Membership in the operand cells of an instruction that fits, by the offset from `pc`. -/
theorem State.mem_take_operandCells {n : Nat} (hn : n ≤ 3) (hfit : s.pc.toNat + n ≤ 32767) (w : Cell) :
    w ∈ s.operandCells.take n ↔ ∃ k, 1 ≤ k ∧ k ≤ n ∧ cellAt s k = w := by
  rw [State.take_operandCells hn hfit, List.mem_map]
  constructor
  · rintro ⟨k, hk, hw⟩
    exact ⟨k + 1, Nat.le_add_left 1 k, List.mem_range.mp hk, hw⟩
  · rintro ⟨k, hpos, hk, hw⟩
    exact ⟨k - 1, List.mem_range.mpr (by omega), by rwa [Nat.sub_add_cancel hpos]⟩

/-- The opcode cell that a fault at `pc` records: the first fetched cell, if there is one (R21, R53). -/
theorem State.head?_fetchCells (s : State) :
    s.fetchCells.head? = if s.pc.toNat ≤ 32767 then some (cellAt s 0) else none := by
  split
  · rw [State.fetchCells_eq_cellAt_cons ‹_›, List.head?_cons]
  · rw [State.fetchCells_eq_nil (by simp only [Config.memCells]; omega), List.head?_nil]

/-- A rejection records the first cell of the list that was to be decoded, if there is one (R53 to R56). -/
theorem State.raiseReject_of_decode {cells : List Cell} {r : Reject} (h : decode cells = .error r) (s : State) :
    ∃ kind, s.raiseReject r = s.raise kind cells.head? := by
  cases cells with
  | nil => cases h; exact ⟨_, rfl⟩
  | cons op rest =>
    rcases decode_cons_cases op rest with ⟨_, he⟩ | ⟨_, _, he⟩ | ⟨_, _, _, he⟩ | ⟨_, _, _, i, he⟩ <;>
      cases h.symm.trans he <;> exact ⟨_, rfl⟩

/-- A step that faults is the raise of its kind with the fetched opcode cell recorded (R60, R100). -/
theorem step_eq_raise {kind : FaultKind} {p : Cell} {o : Option Cell} (hr : s.status = .running)
    (h : step s = .next t) (ht : t.status = .fault kind p o) : t = s.raise kind s.fetchCells.head? := by
  rcases step_cases h with ⟨hne, -⟩ | ⟨-, i, hf, hx⟩ | ⟨-, r, hf, rfl⟩
  · exact absurd hr hne
  · rcases exec_status_cases hx with hst | ⟨-, rfl⟩ | ⟨k, rfl⟩
    · rw [hst, hr] at ht
      cases ht
    · cases ht
    · obtain ⟨rest, hcells⟩ := encode_prefix_of_decode hf
      cases ht
      rw [← hcells]
      rfl
  · obtain ⟨k, hk⟩ := State.raiseReject_of_decode hf s
    rw [hk] at ht ⊢
    cases ht
    rfl

/-- What an instruction that is no control transfer does to `pc`: it advances by the width, unless it raises or is an
`in` that waits (R59). -/
theorem exec_pc_of_not_isControl (hc : isControl i = false) (h : exec i s = .next t) :
    t.pc = s.pc + BitVec.ofNat 16 i.width ∨ (∃ kind op, t = s.raise kind op) ∨
      ∃ a, i = .inp a ∧ s.input = [] ∧ t = s := by
  cases i with
  | halt | jmp a | jt a b | jf a b | call a | ret => cases hc
  | set a b =>
    rcases execSet_cases h with ⟨_, _, rfl⟩ | ⟨_, _, rfl⟩
    · simp [Instr.width, Instr.operands]
    · exact .inr (.inl ⟨_, _, rfl⟩)
  | pop a =>
    rcases execPop_cases h with ⟨_, _, _, rfl⟩ | ⟨_, rfl⟩
    · simp [Instr.width, Instr.operands]
    · exact .inr (.inl ⟨_, _, rfl⟩)
  | mod a b c =>
    rcases execMod_cases h with ⟨_, rfl⟩ | ⟨_, rfl⟩
    · simp [Instr.width, Instr.operands]
    · exact .inr (.inl ⟨_, _, rfl⟩)
  | rmem a b =>
    rcases execRmem_cases h with ⟨_, rfl⟩ | ⟨_, rfl⟩
    · simp [Instr.width, Instr.operands]
    · exact .inr (.inl ⟨_, _, rfl⟩)
  | inp a =>
    rcases execInp_cases h with ⟨he, rfl⟩ | ⟨_, _, _, ⟨_, rfl⟩ | ⟨_, rfl⟩⟩
    · exact .inr (.inr ⟨a, rfl, he, rfl⟩)
    · simp [Instr.width, Instr.operands]
    · simp [Instr.width, Instr.operands]
  | eq a b c | gt a b c | add a b c | mult a b c | and a b c | or a b c =>
    cases h
    simp [alu3, Instr.width, Instr.operands]
  | not a b | wmem a b | push a | out a | noop =>
    cases h
    simp [Instr.width, Instr.operands]

end Sys2Proof.Machine
end

section
/-!
PROOFS. The statements about the step and the operands (spec/40_step_and_operands.md), each from the laws above.
-/

namespace Sys2Proof.StepProofs

open Sys2Proof.Machine Sys2Proof.Claims

/-- Settles O36: whether phases 1 to 4 or the instruction raises, the raise records `pc` and the first fetched cell. -/
theorem faultsArePrecise : Obligations.FaultsArePrecise := by
  intro s t kind p o hr h ht
  obtain rfl := step_eq_raise hr h ht
  cases ht
  exact ⟨rfl, s.head?_fetchCells, rfl⟩

/-- Settles O4: the four outcomes of the decoder exclude each other. -/
theorem decodeRejectsExactlyTheInvalidCells : Obligations.DecodeRejectsExactlyTheInvalidCells := by
  refine ⟨rfl, fun op rest => ?_⟩
  rcases decode_cons_cases op rest with
    ⟨hop, he⟩ | ⟨hop, hlen, he⟩ | ⟨hop, hlen, hw, he⟩ | ⟨hop, hlen, hw, i, he⟩
  · simp [he, hop, hop.not_ge]
  · simp [he, hop, hop.not_gt, hlen, hlen.not_ge]
  · simp [he, hop, hop.not_gt, hlen, hlen.not_gt, hw]
  · simpa [he, hop, hop.not_gt, hlen, hlen.not_gt] using hw

/-- Settles O7, by the class of the raw operand. -/
theorem readResolution : Obligations.ReadResolution := by
  intro w s hw
  rcases Operand.ofCell_cases hw with ⟨hlit, ho⟩ | ⟨r, hreg, ho⟩
  · exact ⟨_, ho, fun _ => low15_toNat (Nat.lt_succ_of_le hlit), fun r hr => by omega⟩
  · refine ⟨_, ho, fun _ => by omega, fun r' hr => ?_⟩
    have : r = r' := Fin.ext (by omega)
    rw [this, State.val_reg]

/-- Settles O8, by the class of the raw operand: each class names one place, and write resolution leaves every other. -/
theorem writeResolution : Obligations.WriteResolution := by
  intro w v s hw
  have hrest : ∀ o, SameRest s (s.wr o v) ∧ (s.wr o v).pc = s.pc := fun o => by simp [SameRest]
  rcases Operand.ofCell_cases hw with ⟨hlit, ho⟩ | ⟨r, hreg, ho⟩
  · refine ⟨_, ho, fun _ => ⟨fun i => by simp [State.wr_reg], fun x => ?_⟩, fun r hr => by omega, hrest _⟩
    have hx : w.low15 = x ↔ x.toNat = w.toNat := by
      rw [← BitVec.toNat_inj, low15_toNat (Nat.lt_succ_of_le hlit), eq_comm]
    rw [State.wr_cell, apply_ite BitVec.toNat, toCell_toNat]
    simp only [Operand.lit.injEq, hx]
  · refine ⟨_, ho, fun _ => by omega, fun r' hr => ⟨fun x => by simp [State.wr_cell], fun i => ?_⟩, hrest _⟩
    have hr' : r = r' := Fin.ext (by omega)
    simp only [State.wr_reg, hr', Operand.reg.injEq, eq_comm]

/-- Settles O31: beyond memory no cell is fetched, and decoding no cell rejects in phase 1. -/
theorem opcodeFetchBeyondMemoryFaults : Obligations.OpcodeFetchBeyondMemoryFaults := by
  intro s hr
  refine ⟨fun hpc => ?_, fun hpc => by rw [s.head?_fetchCells, if_pos hpc]⟩
  have hf : s.fetch = .error .noOpcodeCell := by
    rw [State.fetch, State.fetchCells_eq_nil hpc]
    rfl
  exact step_of_fetch_error hr hf

/-- Settles O33: fewer cells are fetched than the opcode has operands. -/
theorem operandsBeyondMemoryFault : Obligations.OperandsBeyondMemoryFault := by
  intro s hr hpc hop hfit
  obtain ⟨-, hbeyond, -⟩ := decodeRejectsExactlyTheInvalidCells.2 (cellAt s 0) s.operandCells
  have hshort : s.operandCells.length < operandCount (cellAt s 0).toNat := by
    rw [State.length_operandCells]
    omega
  have hf : s.fetch = .error (.operandBeyondEnd (cellAt s 0)) := by
    rw [State.fetch, State.fetchCells_eq_cellAt_cons hpc]
    exact hbeyond.mpr ⟨hop, hshort⟩
  exact step_of_fetch_error hr hf

/-- Settles O34: the invalid cell is among the fetched operand cells. -/
theorem invalidOperandCellFaults : Obligations.InvalidOperandCellFaults := by
  rintro s hr hop hfit ⟨k, hk, hkn, hbad⟩
  obtain ⟨-, -, hinvalid⟩ := decodeRejectsExactlyTheInvalidCells.2 (cellAt s 0) s.operandCells
  have hn := operandCount_le (cellAt s 0).toNat
  have hlong : operandCount (cellAt s 0).toNat ≤ s.operandCells.length := State.le_length_operandCells hn hfit
  have hmem := (State.mem_take_operandCells hn hfit (cellAt s k)).mpr ⟨k, hk, hkn, rfl⟩
  have hf : s.fetch = .error (.invalidOperand (cellAt s 0)) := by
    rw [State.fetch, State.fetchCells_eq_cellAt_cons (by omega)]
    exact hinvalid.mpr ⟨hop, hlong, _, hmem, hbad⟩
  exact step_of_fetch_error hr hf

/-- Settles O35: the cells are decoded, and the encoding of what they decode to is the cells again. -/
theorem validCellsRunTheirInstruction : Obligations.ValidCellsRunTheirInstruction := by
  intro s hr hop hfit hvalid
  have hn := operandCount_le (cellAt s 0).toNat
  have hlong := State.le_length_operandCells hn hfit
  have hcells : s.fetchCells = cellAt s 0 :: s.operandCells := State.fetchCells_eq_cellAt_cons (by omega)
  rcases decode_cons_cases (cellAt s 0) s.operandCells with
    ⟨hbad, -⟩ | ⟨-, hshort, -⟩ | ⟨-, -, ⟨w, hw, hbad⟩, -⟩ | ⟨-, -, -, i, hi⟩
  · omega
  · omega
  · obtain ⟨k, hk, hkn, rfl⟩ := (State.mem_take_operandCells hn hfit w).mp hw
    have := hvalid k hk hkn
    omega
  · refine ⟨i, ?_, step_of_fetch_ok hr (by rw [State.fetch, hcells, hi])⟩
    rw [encode_eq_of_decode_cons hi, State.take_operandCells hn hfit, Nat.add_comm 1, List.range_succ_eq_map,
      List.map_cons, List.map_map]
    rfl

/-- Settles O49: a raise ends the run, so a machine that still runs has advanced or waits. -/
theorem sequentialInstructionsAdvanceByTheirWidth : Obligations.SequentialInstructionsAdvanceByTheirWidth := by
  intro i s t hc hr h ht
  rcases exec_pc_of_not_isControl hc h with hpc | ⟨kind, op, rfl⟩ | ⟨a, hi, hin, -⟩
  · exact .inr hpc
  · cases ht
  · exact .inl ⟨a, hi, hin⟩

/-- Settles O39: decoding the fetched cells is the fetch. -/
theorem stepRunsTheDecodedInstruction : Obligations.StepRunsTheDecodedInstruction :=
  fun _ _ hr hd => step_of_fetch_ok hr hd

end Sys2Proof.StepProofs
end

section
/-!
SUPPORT. The effect of an instruction that ends in write resolution, as the statements word it (R58, R59), and what the
branching meanings answer under each of their conditions: the inversions of Laws/Exec.lean, forwards.
-/

namespace Sys2Proof.Machine

open Sys2Proof.Claims

variable {s u : State}

/-! ### Write resolution and the advance -/

/-- Write resolution and the advance in a state that reads as `s` does: the place the destination names holds the value,
and every other register and cell is that of `s` (R58). -/
theorem writes_wr_advance (hregs : SameRegs s u) (hmem : SameMem s u) (d : Operand) (v : Word) (n : Nat) :
    Writes d v s ((u.wr d v).advance n) := by
  refine ⟨fun r => ?_, fun x => ?_⟩
  · rw [State.advance_reg, State.wr_reg, hregs r]
  · rw [State.advance_cell, State.wr_cell, hmem x]

/-- Write resolution and the advance over `n` cells do nothing else (R58, R59). -/
theorem onlyWrites_wr_advance (s : State) (d : Operand) (v : Word) (n : Nat) :
    OnlyWrites d v n s ((s.wr d v).advance n) :=
  ⟨writes_wr_advance (fun _ => rfl) (fun _ => rfl) d v n, by simp [SameRest], by simp⟩

/-! ### The branching meanings, forwards -/

/-- `pop` with a top writes it and leaves the rest (R65). -/
theorem exec_pop_of_stack_cons {top : Word} {rest : List Word} (h : s.stack = top :: rest) (a : Operand) :
    exec (.pop a) s = .next (((s.setStack rest).wr a top).advance 2) := by
  simp only [exec, execPop, h]

/-- `pop` without a top raises (R94). -/
theorem exec_pop_of_stack_nil (h : s.stack = []) (a : Operand) :
    exec (.pop a) s = .next (s.raise .stackUnderflow (some (Instr.pop a).opcodeCell)) := by
  simp only [exec, execPop, h]

/-- `ret` without a top raises (R81). -/
theorem exec_ret_of_stack_nil (h : s.stack = []) :
    exec .ret s = .next (s.raise .stackUnderflow (some Instr.ret.opcodeCell)) := by
  simp only [exec, execRet, h]

/-- `mod` by zero raises (R71). -/
theorem exec_mod_of_val_eq_zero {c : Operand} (h : s.val c = 0) (a b : Operand) :
    exec (.mod a b c) s = .next (s.raise .divisionByZero (some (Instr.mod a b c).opcodeCell)) :=
  if_pos h

/-- `rmem` of a cell that holds no word raises (R85). -/
theorem exec_rmem_of_not_word {b : Operand} (h : ¬(s.cell (s.val b)).toNat < Config.regBase) (a : Operand) :
    exec (.rmem a b) s = .next (s.raise .invalidWord (some (Instr.rmem a b).opcodeCell)) :=
  if_neg h

/-- `call` with a return address that is no word raises (R80). -/
theorem exec_call_of_not_word (h : ¬s.pc.toNat + 2 < Config.memCells) (a : Operand) :
    exec (.call a) s = .next (s.raise .addressOutOfRange (some (Instr.call a).opcodeCell)) :=
  if_neg h

end Sys2Proof.Machine
end

section
/-!
PROOFS. The statements about move and stack (spec/41_move_and_stack.md) and the own fault conditions, each from the laws
above.
-/

namespace Sys2Proof.MoveStackProofs

open Sys2Proof.Machine Sys2Proof.Claims

/-- Settles O9: `set` of a register is write resolution and the advance. -/
theorem setCopiesItsSource : Obligations.SetCopiesItsSource :=
  fun r b s => ⟨_, rfl, onlyWrites_wr_advance s (.reg r) (s.val b) 3⟩

/-- Settles O11: the stack without its top reads as the state before in every register and cell. -/
theorem popWritesTheTopOfTheStack : Obligations.PopWritesTheTopOfTheStack := by
  intro a top rest s h
  refine ⟨_, exec_pop_of_stack_cons h a, ?_, ?_, ?_⟩
  · simp
  · exact writes_wr_advance (u := s.setStack rest) (fun _ => rfl) (fun _ => rfl) a top 2
  · simp

/-- Settles O10: `push` touches the stack and `pc` only, so what `pop` writes in the pushed state it writes in `s`. -/
theorem pushAddsItsSourceOnTop : Obligations.PushAddsItsSourceOnTop := by
  intro a s
  refine ⟨rfl, _, rfl, rfl, rfl, fun _ => rfl, fun _ => rfl, rfl, rfl, rfl, fun d => ?_⟩
  obtain ⟨u, hpop, hstack, hwrites, -⟩ :=
    popWritesTheTopOfTheStack d (s.val a) s.stack ((s.push (s.val a)).advance 2) rfl
  exact ⟨u, hpop, hstack, hwrites⟩

/-- Settles O29, condition by condition: a raise is the faulted state, with the instruction's opcode recorded. -/
theorem ownFaultConditionsRaise : Obligations.OwnFaultConditionsRaise := by
  intro v a b c s
  refine ⟨rfl, fun hstack => ⟨?_, ?_⟩, fun hzero => ?_, fun hcell => ?_, fun hpc => ?_⟩
  · exact exec_pop_of_stack_nil hstack a
  · exact exec_ret_of_stack_nil hstack
  · exact exec_mod_of_val_eq_zero (BitVec.eq_of_toNat_eq hzero) a b
  · exact exec_rmem_of_not_word (Nat.not_lt.mpr hcell) a
  · exact exec_call_of_not_word (Nat.not_lt.mpr hpc) a

end Sys2Proof.MoveStackProofs
end

section
/-!
SUPPORT. What the functions of the ALU compute, said once (spec/42_alu.md R67 to R74), and the shape they share (R66).
-/

namespace Sys2Proof.Machine

open Sys2Proof.Claims

/-! ### The values -/

/-- `eq` compares the values as numbers (R67). -/
theorem aluEq_eq (b c : Word) : aluEq b c = if b.toNat = c.toNat then 1 else 0 := by
  simp only [aluEq, truthWord, beq_iff_eq, BitVec.toNat_inj]

/-- `gt` compares the values as unsigned numbers (R68). -/
theorem aluGt_eq (b c : Word) : aluGt b c = if b.toNat > c.toNat then 1 else 0 := by
  simp only [aluGt, truthWord, decide_eq_true_eq]

@[simp] theorem aluAdd_toNat (b c : Word) : (aluAdd b c).toNat = (b.toNat + c.toNat) % 32768 :=
  BitVec.toNat_ofNat _ _

@[simp] theorem aluMult_toNat (b c : Word) : (aluMult b c).toNat = (b.toNat * c.toNat) % 32768 :=
  BitVec.toNat_ofNat _ _

/-- A remainder is at most the dividend, so nothing is cut off (R71). -/
@[simp] theorem aluMod_toNat (b c : Word) : (aluMod b c).toNat = b.toNat % c.toNat :=
  (BitVec.toNat_ofNat _ _).trans (Nat.mod_eq_of_lt ((Nat.mod_le _ _).trans_lt b.isLt))

@[simp] theorem aluAnd_getLsbD (b c : Word) (k : Nat) : (aluAnd b c).getLsbD k = (b.getLsbD k && c.getLsbD k) :=
  BitVec.getLsbD_and

@[simp] theorem aluOr_getLsbD (b c : Word) (k : Nat) : (aluOr b c).getLsbD k = (b.getLsbD k || c.getLsbD k) :=
  BitVec.getLsbD_or

/-- `not` inverts the bits 14 to 0 (R74). -/
theorem aluNot_getLsbD (b : Word) {k : Nat} (h : k < 15) : (aluNot b).getLsbD k = !b.getLsbD k := by
  simp [aluNot, h]

/-- The 15-bit complement is the distance from 32767 (R74). -/
@[simp] theorem aluNot_toNat (b : Word) : (aluNot b).toNat = 32767 - b.toNat :=
  BitVec.toNat_not

/-- The 15-bit complement is self-inverse (R74, R75). -/
@[simp] theorem aluNot_aluNot (b : Word) : aluNot (aluNot b) = b :=
  BitVec.not_not

/-! ### The shared shape -/

/-- A three-operand instruction writes its result and does nothing else (R66). -/
theorem onlyWrites_alu3 (f : Word → Word → Word) (a b c : Operand) (s : State) :
    OnlyWrites a (f (s.val b) (s.val c)) 4 s (alu3 f a b c s) :=
  onlyWrites_wr_advance s a _ 4

/-- `not` writes the complement and does nothing else (R66, R74). -/
theorem exec_not_onlyWrites (a b : Operand) (s : State) :
    ∃ t, exec (.not a b) s = .next t ∧ OnlyWrites a (aluNot (s.val b)) 3 s t :=
  ⟨_, rfl, onlyWrites_wr_advance s a _ 3⟩

/-- `mod` by a divisor that is not zero has the shared shape (R71). -/
theorem exec_mod_of_val_ne_zero {s : State} {c : Operand} (h : s.val c ≠ 0) (a b : Operand) :
    exec (.mod a b c) s = .next (alu3 aluMod a b c s) :=
  if_neg h

end Sys2Proof.Machine
end

section
/-!
PROOFS. The statements about comparison, arithmetic and logic (spec/42_alu.md): the shared shape of an instruction with
the law of its function.
-/

namespace Sys2Proof.AluProofs

open Sys2Proof.Machine Sys2Proof.Claims

/-- Settles O12: the shared shape, with the laws of `eq` and `gt`. -/
theorem eqAndGtWriteOneOrZero : Obligations.EqAndGtWriteOneOrZero := by
  intro a b c s
  rw [← aluEq_eq, ← aluGt_eq]
  exact ⟨⟨rfl, _, rfl, onlyWrites_alu3 aluEq a b c s⟩, ⟨rfl, _, rfl, onlyWrites_alu3 aluGt a b c s⟩⟩

/-- Settles O13: the shared shape, with the laws of `add` and `mult`. -/
theorem addAndMultAreModulo32768 : Obligations.AddAndMultAreModulo32768 :=
  fun a b c s =>
    ⟨⟨rfl, _, _, rfl, aluAdd_toNat _ _, onlyWrites_alu3 aluAdd a b c s⟩,
      ⟨rfl, _, _, rfl, aluMult_toNat _ _, onlyWrites_alu3 aluMult a b c s⟩⟩

/-- Settles O14, by the divisor: the shared shape with the law of `mod`, or the raise. -/
theorem modWritesTheRemainderOrFaults : Obligations.ModWritesTheRemainderOrFaults := by
  intro a b c s
  refine ⟨rfl, fun hne => ?_, fun hzero => ?_⟩
  · have hc : s.val c ≠ 0 := fun h => hne (congrArg BitVec.toNat h)
    exact ⟨_, _, exec_mod_of_val_ne_zero hc a b, aluMod_toNat _ _, onlyWrites_alu3 aluMod a b c s⟩
  · exact exec_mod_of_val_eq_zero (BitVec.eq_of_toNat_eq hzero) a b

/-- Settles O15: the shared shape, with the laws of `and`, `or` and `not` bit by bit. -/
theorem andOrNotAreBitwise : Obligations.AndOrNotAreBitwise := by
  intro a b c s
  obtain ⟨t, ht, hnot⟩ := exec_not_onlyWrites a b s
  exact ⟨⟨rfl, _, _, rfl, fun k _ => aluAnd_getLsbD _ _ k, onlyWrites_alu3 aluAnd a b c s⟩,
    ⟨rfl, _, _, rfl, fun k _ => aluOr_getLsbD _ _ k, onlyWrites_alu3 aluOr a b c s⟩,
    ⟨rfl, t, _, ht, fun _ hk => aluNot_getLsbD _ hk, hnot⟩⟩

/-- Settles O16: the second `not` reads the complement from `r`, and its complement is the value of `b`. -/
theorem notTwiceGivesTheValueBack : Obligations.NotTwiceGivesTheValueBack := by
  intro r d b s
  obtain ⟨t, ht, ⟨hregs, -⟩, -⟩ := exec_not_onlyWrites (.reg r) b s
  obtain ⟨u, hu, hwrites, -⟩ := exec_not_onlyWrites d (.reg r) t
  have hr : t.reg r = aluNot (s.val b) := by rw [hregs, if_pos rfl]
  rw [State.val_reg, hr, aluNot_aluNot] at hwrites
  exact ⟨t, u, ht, hu, hwrites, by rw [hr, aluNot_toNat]⟩

end Sys2Proof.AluProofs
end

section
/-!
SUPPORT. The forward rules of the control instructions (spec/43_control.md R77 to R82): what a move of `pc` leaves
unchanged, the two conditional jumps as one choice, and the return address as a word and as a cell.
-/

namespace Sys2Proof.Machine

open Sys2Proof.Claims

/-! ### Moves of `pc` -/

/-- A control transfer changes `pc` only (R83). -/
theorem jumpTo_frame (s : State) (v : Word) :
    SameRegs s (s.jumpTo v) ∧ SameMem s (s.jumpTo v) ∧ SameRest s (s.jumpTo v) :=
  ⟨s.jumpTo_reg v, s.jumpTo_cell v, s.jumpTo_stack v, s.jumpTo_status v, s.jumpTo_out v, s.jumpTo_input v⟩

/-- The sequential advance changes `pc` only (R59). -/
theorem advance_frame (s : State) (n : Nat) :
    SameRegs s (s.advance n) ∧ SameMem s (s.advance n) ∧ SameRest s (s.advance n) :=
  ⟨s.advance_reg n, s.advance_cell n, s.advance_stack n, s.advance_status n, s.advance_out n, s.advance_input n⟩

/-- The choice between a jump and the advance over 3 cells, whatever its condition (R78, R79). -/
theorem ite_jumpTo_advance_effect (p : Prop) [Decidable p] (s : State) (v : Word) {t : State}
    (ht : t = if p then s.jumpTo v else s.advance 3) :
    SameRegs s t ∧ SameMem s t ∧ SameRest s t ∧ (p → t.pc.toNat = v.toNat) ∧ (¬p → t.pc = s.pc + 3) := by
  by_cases hp : p
  · obtain rfl : t = s.jumpTo v := ht.trans (if_pos hp)
    obtain ⟨hregs, hmem, hrest⟩ := jumpTo_frame s v
    exact ⟨hregs, hmem, hrest, fun _ => toCell_toNat v, fun hn => absurd hp hn⟩
  · obtain rfl : t = s.advance 3 := ht.trans (if_neg hp)
    obtain ⟨hregs, hmem, hrest⟩ := advance_frame s 3
    exact ⟨hregs, hmem, hrest, fun h => absurd h hp, fun _ => s.advance_pc 3⟩

/-- `jt` jumps on a value that is not 0 (R78). -/
theorem exec_jt (a b : Operand) (s : State) :
    exec (.jt a b) s = .next (if (s.val a).toNat ≠ 0 then s.jumpTo (s.val b) else s.advance 3) := by
  simp only [exec, execJt, nonZero_eq_true_iff]

/-- `jf` jumps on 0: the two branches of the meaning, with the condition turned around (R79). -/
theorem exec_jf (a b : Operand) (s : State) :
    exec (.jf a b) s = .next (if (s.val a).toNat = 0 then s.jumpTo (s.val b) else s.advance 3) := by
  simp only [exec, execJf, nonZero_eq_true_iff, ne_eq, ite_not]

/-! ### `call` and `ret` -/

/-- `call` with a return address that is a word pushes it and jumps (R80). -/
theorem exec_call_of_word {s : State} (h : s.pc.toNat + 2 < Config.memCells) (a : Operand) :
    exec (.call a) s = .next ((s.push (Cell.low15 (s.pc + 2))).jumpTo (s.val a)) :=
  if_pos h

/-- `ret` with a top jumps to it and leaves the rest (R81). -/
theorem exec_ret_of_stack_cons {s : State} {top : Word} {rest : List Word} (h : s.stack = top :: rest) :
    exec .ret s = .next ((s.setStack rest).jumpTo top) := by
  simp only [exec, execRet, h]

/-- A return address inside memory does not wrap (R80). -/
theorem State.toNat_pc_add_two {s : State} (h : s.pc.toNat + 2 < Config.memCells) :
    (s.pc + 2).toNat = s.pc.toNat + 2 :=
  BitVec.toNat_add_of_lt (h.trans (by decide))

/-- A cell that holds a word is the zero extension of its 15 bits (R10). -/
theorem toCell_low15 {c : Cell} (h : c.toNat < 32768) : Word.toCell (Cell.low15 c) = c :=
  BitVec.eq_of_toNat_eq ((toCell_toNat _).trans (low15_toNat h))

end Sys2Proof.Machine
end

section
/-!
PROOFS. The statements about control (spec/43_control.md), each from the forward rule of its instruction and the frame
of a move of `pc`.
-/

namespace Sys2Proof.ControlProofs

open Sys2Proof.Machine Sys2Proof.Claims

/-- Settles O18: `jmp` is a transfer; `jt` and `jf` are the same choice under complementary conditions. -/
theorem jumpsSetThePc : Obligations.JumpsSetThePc := by
  intro a b s
  refine ⟨⟨rfl, ?_⟩, ⟨rfl, ?_⟩, ⟨rfl, ?_⟩⟩
  · exact ⟨_, rfl, toCell_toNat _, jumpTo_frame s _⟩
  · obtain ⟨hregs, hmem, hrest, hjump, hadv⟩ := ite_jumpTo_advance_effect ((s.val a).toNat ≠ 0) s (s.val b) rfl
    exact ⟨_, exec_jt a b s, hregs, hmem, hrest, hjump, fun hzero => hadv (not_not_intro hzero)⟩
  · exact ⟨_, exec_jf a b s, ite_jumpTo_advance_effect ((s.val a).toNat = 0) s (s.val b) rfl⟩

/-- Settles O19: the pushed word is the return address, because below 32768 the 15 bits are all of it. -/
theorem callPushesTheReturnAddress : Obligations.CallPushesTheReturnAddress := by
  intro a s h
  have hfit : s.pc.toNat + 2 < Config.memCells := Nat.lt_succ_of_le h
  have hpc : (s.pc + 2).toNat = s.pc.toNat + 2 := State.toNat_pc_add_two hfit
  have hv : (Cell.low15 (s.pc + 2)).toNat = s.pc.toNat + 2 := (low15_toNat (hpc.trans_lt hfit)).trans hpc
  exact ⟨_, _, exec_call_of_word hfit a, rfl, hv, toCell_toNat _, fun _ => rfl, fun _ => rfl, rfl, rfl, rfl⟩

/-- Settles O20: `ret` with a top is a transfer to it from the state that holds the rest. -/
theorem retPopsIntoThePc : Obligations.RetPopsIntoThePc :=
  fun _ _ _ h => ⟨_, exec_ret_of_stack_cons h, rfl, toCell_toNat _, fun _ => rfl, fun _ => rfl, rfl, rfl, rfl⟩

/-- Settles O21: `ret` takes off what `call` pushed, and the pushed word extended to a cell is the return address. -/
theorem callThenRetResumesAfterTheCall : Obligations.CallThenRetResumesAfterTheCall := by
  intro a s h
  have hfit : s.pc.toNat + 2 < Config.memCells := Nat.lt_succ_of_le h
  have hpc : Word.toCell (Cell.low15 (s.pc + 2)) = s.pc + 2 :=
    toCell_low15 ((State.toNat_pc_add_two hfit).trans_lt hfit)
  exact ⟨_, _, exec_call_of_word hfit a, exec_ret_of_stack_cons rfl, congrArg (fun c => { s with pc := c }) hpc⟩

/-- Settles O17: the law of `halt` for each field and accessor. -/
theorem haltChangesTheStatusOnly : Obligations.HaltChangesTheStatusOnly :=
  fun s => ⟨_, rfl, s.halt_status, s.halt_pc, s.halt_reg, s.halt_cell, s.halt_stack, s.halt_out, s.halt_input⟩

/-- Settles O22: `noop` is the advance over one cell. -/
theorem noopAdvancesThePcOnly : Obligations.NoopAdvancesThePcOnly :=
  ⟨rfl, fun s => ⟨_, rfl, s.advance_pc 1, advance_frame s 1⟩⟩

end Sys2Proof.ControlProofs
end

section
/-!
SUPPORT. The forward rules of the memory load and store (spec/44_load_store.md R85, R86): the load of a cell that holds
a word, what the store of one cell leaves unchanged, and the opcode cell as data accesses see it.
-/

namespace Sys2Proof.Machine

open Sys2Proof.Claims

variable {s : State}

/-- `rmem` of a cell that holds a word writes the 15 bits of that cell (R85). -/
theorem exec_rmem_of_word {b : Operand} (h : (s.cell (s.val b)).toNat < Config.regBase) (a : Operand) :
    exec (.rmem a b) s = .next ((s.wr a (Cell.low15 (s.cell (s.val b)))).advance 3) :=
  if_pos h

/-- A data store and the advance leave the registers, the stack, the status and the streams as they are (R29, R59). -/
theorem store_advance_frame (s : State) (a v : Word) (n : Nat) :
    SameRegs s ((s.store a v).advance n) ∧ SameRest s ((s.store a v).advance n) := by
  obtain ⟨hregs, -, hrest⟩ := advance_frame (s.store a v) n
  exact ⟨hregs, hrest⟩

/-- The stored cell holds the zero extension of the word (R33). -/
theorem State.cell_store_self (s : State) (a v : Word) : (s.store a v).cell a = Word.toCell v := by
  rw [State.cell_store, if_pos rfl]

/-- The opcode cell of the next fetch is the cell that data accesses read at `pc` (R37). -/
theorem State.head?_fetchCells_of_pc {x : Word} (h : x.toNat = s.pc.toNat) : s.fetchCells.head? = some (s.cell x) := by
  rw [List.head?_eq_getElem?]
  exact MemoryProofs.fetchReadsTheCellsThatStoresWrite s 0 x (by decide) h.symm

end Sys2Proof.Machine
end

section
/-!
PROOFS. The statements about memory load and store (spec/44_load_store.md), each from the forward rule of its
instruction.
-/

namespace Sys2Proof.LoadStoreProofs

open Sys2Proof.Machine Sys2Proof.Claims

/-- Settles O23: the load ends in write resolution, and below 32768 the 15 bits are all of the cell. -/
theorem rmemLoadsTheCell : Obligations.RmemLoadsTheCell := by
  intro a b s h
  have hword : (s.cell (s.val b)).toNat < Config.regBase := Nat.lt_succ_of_le h
  exact ⟨_, _, exec_rmem_of_word hword a, low15_toNat hword, onlyWrites_wr_advance s a _ 3⟩

/-- Settles O24: `wmem` is one data store, and a store to the new `pc` is what the next fetch reads there. -/
theorem wmemStoresOneCell : Obligations.WmemStoresOneCell := by
  intro a b s
  obtain ⟨hregs, hrest⟩ := store_advance_frame s (s.val a) (s.val b) 3
  obtain ⟨hother, -⟩ := changesAtMost_store (s := s) (s.val a) (s.val b) 3
  have hcell : ((s.store (s.val a) (s.val b)).advance 3).cell (s.val a) = Word.toCell (s.val b) :=
    State.cell_store_self s (s.val a) (s.val b)
  refine ⟨rfl, _, rfl, rfl, hregs, hrest, ?_, fun x hx => ?_, fun hpc => ?_⟩
  · rw [hcell, toCell_toNat]
  · exact hother x fun e => hx (Option.some.inj e).symm
  · rw [State.head?_fetchCells_of_pc hpc, hcell]

end Sys2Proof.LoadStoreProofs
end

section
/-!
SUPPORT. The forward rules of `in` for both values of `IN_CR_SWALLOW` (spec/45_io.md R88): the wait, the swallowed byte
and the written byte, and what the three leave unchanged.
-/

namespace Sys2Proof.Machine

open Sys2Proof.Claims

variable {s : State} {ch : Byte} {rest : List Byte}

/-- With no byte available the state is its own next state (R106). -/
theorem inputByte_of_input_nil (h : s.input = []) (swallow : Bool) (a : Operand) : inputByte swallow a s = s := by
  simp only [inputByte, h]

/-- A swallowed byte is consumed and written nowhere (R88, R9). -/
theorem inputByte_of_swallowed {swallow : Bool} (h : s.input = ch :: rest) (hcr : (swallow && ch == Config.cr) = true)
    (a : Operand) : inputByte swallow a s = (s.setInput rest).advance 2 := by
  simp only [inputByte, h]
  exact if_pos hcr

/-- A byte that is not swallowed is consumed and written to the destination (R88). -/
theorem inputByte_of_not_swallowed {swallow : Bool} (h : s.input = ch :: rest)
    (hcr : (swallow && ch == Config.cr) = false) (a : Operand) :
    inputByte swallow a s = ((s.setInput rest).wr a (Byte.toWord ch)).advance 2 := by
  simp only [inputByte, h]
  exact if_neg (Bool.eq_false_iff.mp hcr)

/-- `in` leaves the stack and the status as they are (R88). -/
theorem inputByte_stack_status (swallow : Bool) (a : Operand) (s : State) :
    (inputByte swallow a s).stack = s.stack ∧ (inputByte swallow a s).status = s.status := by
  rcases inputByte_cases swallow a s with ⟨-, e⟩ | ⟨ch, rest, -, ⟨-, -, e⟩ | ⟨-, e⟩⟩ <;> simp [e]

/-- `in` with a byte available advances over its two cells, whether the byte is swallowed or not (R59, R88). -/
theorem inputByte_pc (h : s.input = ch :: rest) (swallow : Bool) (a : Operand) :
    (inputByte swallow a s).pc = s.pc + 2 := by
  cases hcr : swallow && ch == Config.cr with
  | true => rw [inputByte_of_swallowed h hcr]; rfl
  | false => rw [inputByte_of_not_swallowed h hcr, State.advance_pc, State.wr_pc]; rfl

/-- A swallowed byte changes no register and no cell (R88). -/
theorem inputByte_same_of_swallowed {swallow : Bool} (h : s.input = ch :: rest)
    (hcr : (swallow && ch == Config.cr) = true) (a : Operand) :
    SameRegs s (inputByte swallow a s) ∧ SameMem s (inputByte swallow a s) := by
  rw [inputByte_of_swallowed h hcr]
  exact ⟨fun _ => rfl, fun _ => rfl⟩

/-- A byte that is not swallowed goes to the destination and nowhere else: the state without the byte reads as before in
every register and cell (R58, R88). -/
theorem inputByte_writes {swallow : Bool} (h : s.input = ch :: rest) (hcr : (swallow && ch == Config.cr) = false)
    (a : Operand) : Writes a (Byte.toWord ch) s (inputByte swallow a s) := by
  rw [inputByte_of_not_swallowed h hcr]
  exact writes_wr_advance (u := s.setInput rest) (fun _ => rfl) (fun _ => rfl) a (Byte.toWord ch) 2

/-- On this hardware exactly the byte 13 is swallowed (R9). -/
theorem swallowed_iff (ch : Byte) : (Config.inCrSwallow && ch == Config.cr) = true ↔ ch.toNat = 13 := by
  simp [Config.inCrSwallow, Config.cr, ← BitVec.toNat_inj]

end Sys2Proof.Machine
end

section
/-!
PROOFS. The statements about character output and input (spec/45_io.md), each from the forward rule of its instruction;
the end of the wait is `in` in the state that holds the supplied byte.
-/

namespace Sys2Proof.IoProofs

open Sys2Proof.Machine Sys2Proof.Claims

/-- Settles O25: `out` is `emit` and the advance over two cells. -/
theorem outAppendsTheWord : Obligations.OutAppendsTheWord := by
  intro a s
  obtain ⟨hregs, hmem, hstack, hstatus, hout, hinput⟩ := advance_frame (s.emit (s.val a)) 2
  exact ⟨_, rfl, hout.trans (s.emit_out _), State.advance_pc _ 2, hregs, hmem, hstack, hstatus, hinput⟩

/-- Settles O26: either way one byte is consumed, and 13 is the byte that is swallowed. -/
theorem inConsumesOneByte : Obligations.InConsumesOneByte := by
  intro a ch rest s h
  obtain ⟨hout, hinput⟩ := inputByte_streams Config.inCrSwallow a h
  obtain ⟨hstack, hstatus⟩ := inputByte_stack_status Config.inCrSwallow a s
  refine ⟨_, rfl, hinput, inputByte_pc h _ a, hstack, hstatus, hout, fun h13 => ?_, fun h13 => ?_⟩
  · exact inputByte_same_of_swallowed h ((swallowed_iff ch).mpr h13) a
  · have hcr := Bool.eq_false_iff.mpr (mt (swallowed_iff ch).mp h13)
    exact ⟨_, toWord_toNat ch, inputByte_writes h hcr a⟩

/-- Settles O27: with the parameter false no byte is swallowed. -/
theorem withoutSwallowEveryByteIsWritten : Obligations.WithoutSwallowEveryByteIsWritten := by
  intro a ch rest s h
  obtain ⟨-, hinput⟩ := inputByte_streams false a h
  exact ⟨hinput, inputByte_pc h false a, _, toWord_toNat ch, inputByte_writes h (Bool.false_and _) a⟩

/-- Settles O28: the step is that `in` both times, first without a byte and then with the supplied one. The supplied
state differs from `s` in the input only, so what is written over it is written over `s`. -/
theorem waitingEndsWithASuppliedByte : Obligations.WaitingEndsWithASuppliedByte := by
  rintro s ⟨hr, hempty, a, hf⟩
  refine ⟨?_, fun b => ?_⟩
  · rw [step_of_fetch_ok hr hf]
    exact congrArg _ (inputByte_of_input_nil hempty Config.inCrSwallow a)
  · have hone : (s.supply b).input = [b] := congrArg (· ++ [b]) hempty
    have hstep : step (s.supply b) = exec (.inp a) (s.supply b) := step_of_fetch_ok hr hf
    obtain ⟨t, ht, hinput, hpc, -, hstatus, -, -, hwritten⟩ := inConsumesOneByte a b [] (s.supply b) hone
    exact ⟨t, hstep.trans ht, hinput, hstatus.trans hr, hpc, a, hf, hwritten⟩

end Sys2Proof.IoProofs
end

section
/-!
SUPPORT. The table of R98 read backwards: which instruction raises which kind, and under which condition. With it, that
every meaning answers, and the two outcomes of the fetch that decide the opcode statements: the `halt` and the unknown
opcode.
-/

namespace Sys2Proof.Machine

open Sys2Proof.Claims

variable {s t : State} {i : Instr} {kind : FaultKind} {p : Cell} {o : Option Cell}

/-- The own fault conditions of R98: in `s` the instruction raises the kind (R63, R65, R71, R80, R81, R85). -/
inductive OwnFault (s : State) : Instr → FaultKind → Prop where
  | set (v : Word) (b : Operand) : OwnFault s (.set (.lit v) b) .invalidRegister
  | pop (a : Operand) (h : s.stack = []) : OwnFault s (.pop a) .stackUnderflow
  | ret (h : s.stack = []) : OwnFault s .ret .stackUnderflow
  | mod (a b c : Operand) (h : s.val c = 0) : OwnFault s (.mod a b c) .divisionByZero
  | call (a : Operand) (h : 32767 < s.pc.toNat + 2) : OwnFault s (.call a) .addressOutOfRange
  | rmem (a b : Operand) (h : 32767 < (s.cell (s.val b)).toNat) : OwnFault s (.rmem a b) .invalidWord

/-- An instruction takes a running machine to a fault by an own condition only (R98). -/
theorem ownFault_of_exec (hr : s.status = .running) (h : exec i s = .next t) (ht : t.status = .fault kind p o) :
    OwnFault s i kind := by
  cases i with
  | set a b =>
    rcases execSet_cases h with ⟨_, _, rfl⟩ | ⟨v, rfl, rfl⟩
    · simp [hr] at ht
    · cases ht; exact .set v b
  | pop a =>
    rcases execPop_cases h with ⟨_, _, _, rfl⟩ | ⟨hs, rfl⟩
    · simp [hr] at ht
    · cases ht; exact .pop a hs
  | ret =>
    rcases execRet_cases h with ⟨_, _, _, rfl⟩ | ⟨hs, rfl⟩
    · simp [hr] at ht
    · cases ht; exact .ret hs
  | mod a b c =>
    rcases execMod_cases h with ⟨_, rfl⟩ | ⟨hc, rfl⟩
    · simp [hr] at ht
    · cases ht; exact .mod a b c hc
  | call a =>
    rcases execCall_cases h with ⟨_, rfl⟩ | ⟨hpc, rfl⟩
    · simp [hr] at ht
    · cases ht; exact .call a hpc
  | rmem a b =>
    rcases execRmem_cases h with ⟨_, rfl⟩ | ⟨hw, rfl⟩
    · simp [hr] at ht
    · cases ht; exact .rmem a b hw
  | halt => cases h; cases ht
  | inp a => rcases execInp_cases h with ⟨_, rfl⟩ | ⟨_, _, _, ⟨_, rfl⟩ | ⟨_, rfl⟩⟩ <;> simp [hr] at ht
  | jt a b => rcases execJt_cases h with ⟨_, rfl⟩ | ⟨_, rfl⟩ <;> simp [hr] at ht
  | jf a b => rcases execJf_cases h with ⟨_, rfl⟩ | ⟨_, rfl⟩ <;> simp [hr] at ht
  | eq a b c | gt a b c | add a b c | mult a b c | and a b c | or a b c | not a b => cases h; simp [alu3, hr] at ht
  | push a | jmp a | out a | wmem a b | noop => cases h; simp [hr] at ht

/-- The record of a fault that an instruction raises: `pc` and its opcode (R21, R100). -/
theorem exec_fault_record (hr : s.status = .running) (h : exec i s = .next t) (ht : t.status = .fault kind p o) :
    o = some i.opcodeCell ∧ p = s.pc := by
  rcases exec_status_cases h with hst | ⟨-, rfl⟩ | ⟨k, rfl⟩
  · rw [hst, hr] at ht
    cases ht
  · cases ht
  · cases ht
    exact ⟨rfl, rfl⟩

/-- An instruction ends the run of a running machine normally if and only if it is `halt` (R76, R91). -/
theorem exec_halted_iff (hr : s.status = .running) (h : exec i s = .next t) : t.status = .halted ↔ i = .halt := by
  refine ⟨fun ht => ?_, by rintro rfl; cases h; rfl⟩
  rcases exec_status_cases h with hst | ⟨hi, -⟩ | ⟨k, rfl⟩
  · rw [hst, hr] at ht
    cases ht
  · exact hi
  · cases ht

/-- Every meaning answers a next state, on each side of its condition where it has one (log entry 24). -/
theorem exec_answers_next (i : Instr) (s : State) : ∃ t, exec i s = .next t := by
  cases i with
  | set a b => cases a <;> exact ⟨_, rfl⟩
  | pop a =>
    cases hs : s.stack with
    | nil => exact ⟨_, exec_pop_of_stack_nil hs a⟩
    | cons top rest => exact ⟨_, exec_pop_of_stack_cons hs a⟩
  | ret =>
    cases hs : s.stack with
    | nil => exact ⟨_, exec_ret_of_stack_nil hs⟩
    | cons top rest => exact ⟨_, exec_ret_of_stack_cons hs⟩
  | mod a b c =>
    by_cases hc : s.val c = 0
    · exact ⟨_, exec_mod_of_val_eq_zero hc a b⟩
    · exact ⟨_, exec_mod_of_val_ne_zero hc a b⟩
  | rmem a b =>
    by_cases hw : (s.cell (s.val b)).toNat < Config.regBase
    · exact ⟨_, exec_rmem_of_word hw a⟩
    · exact ⟨_, exec_rmem_of_not_word hw a⟩
  | call a =>
    by_cases hpc : s.pc.toNat + 2 < Config.memCells
    · exact ⟨_, exec_call_of_word hpc a⟩
    · exact ⟨_, exec_call_of_not_word hpc a⟩
  | halt | push a | eq a b c | gt a b c | jmp a | jt a b | jf a b | add a b c | mult a b c | and a b c | or a b c
  | not a b | wmem a b | out a | inp a | noop => exact ⟨_, rfl⟩

/-- The fetch gives `halt` exactly where the cell at `pc` is 0 (R41, R76). -/
theorem State.fetch_eq_halt_iff : s.fetch = .ok .halt ↔ s.pc.toNat ≤ 32767 ∧ cellAt s 0 = 0 := by
  have henc : encode .halt = [0] := rfl
  rw [State.fetch, decode_eq_ok_iff, henc]
  by_cases hpc : s.pc.toNat ≤ 32767
  · simp [State.fetchCells_eq_cellAt_cons hpc, List.cons_prefix_cons, hpc, eq_comm]
  · simp [State.fetchCells_eq_nil (Nat.lt_of_not_le hpc), hpc]

/-- The fetch is rejected for its opcode exactly where the cell at `pc` is that opcode and above 21 (R54). -/
theorem State.fetch_eq_unknownOpcode_iff (op : Cell) :
    s.fetch = .error (.unknownOpcode op) ↔ s.pc.toNat ≤ 32767 ∧ op = cellAt s 0 ∧ 21 < op.toNat := by
  rw [State.fetch]
  by_cases hpc : s.pc.toNat ≤ 32767
  · rw [State.fetchCells_eq_cellAt_cons hpc]
    rcases decode_cons_cases (cellAt s 0) s.operandCells with
      ⟨hop, he⟩ | ⟨hop, -, he⟩ | ⟨hop, -, -, he⟩ | ⟨hop, -, -, i, he⟩
    · simp only [he, Except.error.injEq, Reject.unknownOpcode.injEq]
      exact ⟨fun e => ⟨hpc, e.symm, e ▸ hop⟩, fun ⟨_, e, _⟩ => e.symm⟩
    all_goals
      simp only [he, Except.error.injEq, reduceCtorEq, false_iff]
      rintro ⟨-, rfl, hgt⟩
      omega
  · simp [State.fetchCells_eq_nil (Nat.lt_of_not_le hpc), hpc, decode]

end Sys2Proof.Machine
end

section
/-!
PROOFS. The statements about faults and the end of a run (spec/60_exceptions.md), each from the laws above.
-/

namespace Sys2Proof.ExceptionProofs

open Sys2Proof.Machine Sys2Proof.Claims

/-- Settles O30: the disjuncts are the own fault conditions, one or two instructions to a kind. -/
theorem eachInstructionRaisesOnlyItsOwnKind : Obligations.EachInstructionRaisesOnlyItsOwnKind := by
  intro i s t kind p o hr h ht
  obtain ⟨ho, hp⟩ := exec_fault_record hr h ht
  refine ⟨ho, hp, ?_⟩
  cases ownFault_of_exec hr h ht with
  | set v b => exact .inl ⟨rfl, v, b, rfl⟩
  | pop a hs => exact .inr (.inl ⟨rfl, hs, .inl ⟨a, rfl⟩⟩)
  | ret hs => exact .inr (.inl ⟨rfl, hs, .inr rfl⟩)
  | mod a b c hc => exact .inr (.inr (.inl ⟨rfl, a, b, c, rfl, congrArg BitVec.toNat hc⟩))
  | call a hpc => exact .inr (.inr (.inr (.inl ⟨rfl, hpc, a, rfl⟩)))
  | rmem a b hw => exact .inr (.inr (.inr (.inr ⟨rfl, a, b, rfl, hw⟩)))

/-- Settles O32: no instruction has this kind for its own, so the fault is that of a fetch rejected for its opcode. -/
theorem unknownInstructionExactlyAbove21 : Obligations.UnknownInstructionExactlyAbove21 := by
  intro s hr
  have hraise : s.pc.toNat ≤ 32767 → 21 < (cellAt s 0).toNat →
      step s = .next (faulted s .unknownInstruction (some (cellAt s 0))) := fun hpc hop =>
    step_of_fetch_error hr ((State.fetch_eq_unknownOpcode_iff _).mpr ⟨hpc, rfl, hop⟩)
  refine ⟨⟨?_, fun ⟨hpc, hop⟩ => ⟨_, _, _, hraise hpc hop, rfl⟩⟩, hraise⟩
  rintro ⟨t, p, o, h, ht⟩
  rcases step_cases h with ⟨hne, -⟩ | ⟨-, i, -, hx⟩ | ⟨-, r, hf, rfl⟩
  · exact absurd hr hne
  · cases ownFault_of_exec hr hx ht
  · cases r with
    | unknownOpcode op =>
      obtain ⟨hpc, rfl, hop⟩ := (State.fetch_eq_unknownOpcode_iff op).mp hf
      exact ⟨hpc, hop⟩
    | noOpcodeCell | operandBeyondEnd op | invalidOperand op => cases ht

/-- Settles O37: the step of a `halt` is the only one that ends so, and a rejected fetch ends in a fault. -/
theorem onlyHaltReachesHalted : Obligations.OnlyHaltReachesHalted := by
  intro s t hr h
  rw [← State.fetch_eq_halt_iff]
  rcases step_cases h with ⟨hne, -⟩ | ⟨-, i, hf, hx⟩ | ⟨-, r, hf, rfl⟩
  · exact absurd hr hne
  · rw [exec_halted_iff hr hx, hf, Except.ok.injEq]
  · obtain ⟨kind, op, he⟩ := s.raiseReject_eq r
    simp [he, hf]

/-- Settles O41: a terminal state answers itself, a rejected fetch its fault, and a fetched instruction its meaning. -/
theorem everyStateHasANextState : Obligations.EveryStateHasANextState := by
  intro s
  by_cases hr : s.status = .running
  · cases hf : s.fetch with
    | ok i =>
      rw [step_of_fetch_ok hr hf]
      exact exec_answers_next i s
    | error r => exact ⟨_, step_of_fetch_error hr hf⟩
  · exact ⟨s, step_of_not_running hr⟩

end Sys2Proof.ExceptionProofs
end
